-- ==== Sys2Proof/Word.lean ====
section
/-! DEFINITION. The widths of the engine (00_scope R7, R9): a byte, a word, a block, and four words side by side. -/

namespace Sys2Proof

/-- A byte: 8 bits (R9). -/
abbrev Byte := BitVec 8

/-- A word: 32 bits, unsigned (R9). -/
abbrev Word := BitVec 32

/-- A block, a key or an operand: 128 bits (R9). -/
abbrev Block := BitVec 128

/-- Four words in the spec's order `(W0, W1, W2, W3)`: the shape of `MK`, `KW`, `XW` and of `Words(B)` (R10, R20). -/
@[ext] structure Quad where
  w0 : Word
  w1 : Word
  w2 : Word
  w3 : Word
  deriving DecidableEq, Repr

end Sys2Proof
end

