-- ==== Sys2Proof/Syntax.lean ====
section
/-! DEFINITION. The three host commands (30_encoding R80): one constructor per row of the spec's opcode table. -/

namespace Sys2Proof

/-- A command with the operand it carries (R81, R82): `len` is the field `CW[4:0]` as encoded, 0..31, and `opnd` is `OPND`.
A `len` outside the command's legal set is still that command: its own rule raises InvalidLength (R130, R150, R151; log 10). -/
inductive Instr where
  /-- `SETKEY`: bind a key (41_key_schedule R130). -/
  | setkey (len : BitVec 5) (opnd : Block)
  /-- `ENC`: encrypt one block (42_round_datapath R150). -/
  | enc (len : BitVec 5) (opnd : Block)
  /-- `DEC`: decrypt one block (42_round_datapath R151). -/
  | dec (len : BitVec 5) (opnd : Block)
  deriving DecidableEq, Repr

end Sys2Proof
end

