-- ==== Sys2Proof/WellFormed.lean ====
section
/-! DEFINITION. Which commands are well formed: the legal lengths of 30_encoding R84. -/

namespace Sys2Proof

/-- `len` is in the command's legal set: 0..16 for `SETKEY` and `ENC`, 16 alone for `DEC` (R84). -/
def Instr.wellFormed : Instr → Bool
  | .setkey len _ => decide (len.toNat ≤ 16)
  | .enc len _ => decide (len.toNat ≤ 16)
  | .dec len _ => decide (len.toNat = 16)

end Sys2Proof
end

