-- ==== Sys2Proof/Decode.lean ====
section
/-! DEFINITION. Decoding and encoding of the one format `CW8` (30_encoding R81 to R87). The decoder is total on all 256 command
words and rejects a reserved `op` by name; the length and key checks of R86 are made by the commands themselves (log 10). -/

namespace Sys2Proof

/-- Why the decoder rejects a command word. -/
inductive DecodeError where
  /-- `CW[7:5]` is none of 1, 2, 3 (R83, R85). -/
  | reservedOp (op : BitVec 3)
  deriving DecidableEq, Repr

/-- The field `op`, `CW[7:5]` (R81). -/
def cwOp (cw : Byte) : BitVec 3 := cw.extractLsb' 5 3

/-- The field `len`, `CW[4:0]` (R81). -/
def cwLen (cw : Byte) : BitVec 5 := cw.extractLsb' 0 5

/-- The command a `(CW, OPND)` pair stands for (R83, R86). -/
def decode (cw : Byte) (opnd : Block) : Except DecodeError Instr :=
  if cwOp cw = 0b001#3 then .ok (.setkey (cwLen cw) opnd)
  else if cwOp cw = 0b010#3 then .ok (.enc (cwLen cw) opnd)
  else if cwOp cw = 0b011#3 then .ok (.dec (cwLen cw) opnd)
  else .error (.reservedOp (cwOp cw))

/-- The command word of a command: `op ‖ len` (R81, R83). -/
def Instr.commandWord : Instr → Byte
  | .setkey len _ => 0b001#3 ++ len
  | .enc len _ => 0b010#3 ++ len
  | .dec len _ => 0b011#3 ++ len

/-- The operand of a command (R82). -/
def Instr.operand : Instr → Block
  | .setkey _ opnd => opnd
  | .enc _ opnd => opnd
  | .dec _ opnd => opnd

/-- The `(CW, OPND)` pair the host presents for a command (R31). -/
def encode (i : Instr) : Byte × Block := (i.commandWord, i.operand)

/-- Bits 7..0 of a table word: the command word. Bits above `nbits` are 0. -/
def tableCw (nbits w : Nat) : Byte := BitVec.ofNat 8 (w % 2 ^ nbits)

/-- Bits 135..8 of a table word: the operand, which the table gives no bits (log 9). -/
def tableOpnd (nbits w : Nat) : Block := BitVec.ofNat 128 ((w % 2 ^ nbits) >>> 8)

/-- What the decoder reads from an instruction whose bits are `w`, numbered as the opcode table numbers them. -/
def decodeTableWord (nbits w : Nat) : Option Instr :=
  match decode (tableCw nbits w) (tableOpnd nbits w) with
  | .ok i => some i
  | .error _ => none

end Sys2Proof
end

