-- ==== Sys2Proof/Config.lean ====
section
/-! DEFINITION. What the spec leaves open as a value: the parameter `UNWRITTEN` (00_scope R8, 93_implementation_defined U1).
The other two open parameters have no constant here: no rule depends on `LATENCY` (92 D16), and `PLATFORM_MAP` belongs to a bus
wrapper outside the engine (00_scope R6). -/

namespace Sys2Proof.Config

/-- `UNWRITTEN`: word number `word` of draw number `draw`. Free: it has no body, so no proof can learn a value of it (log 3). -/
opaque unwritten (draw word : Nat) : Word

end Sys2Proof.Config
end

