-- ==== Sys2Proof/Machine/State.lean ====
section
/-! DEFINITION. The engine's state (10_state R20), the host's schedule, and the state right after reset (70_reset R210). -/

namespace Sys2Proof.Machine

/-- `SEQ.phase` (R29). -/
inductive Phase where
  /-- IDLE: waiting for a command. -/
  | idle
  /-- KEXP: expanding the key. -/
  | kexp
  /-- CRYPT: in the 32 rounds. -/
  | crypt
  deriving DecidableEq, Repr

/-- `SEQ.dir`, the round-key order of the operation in flight (R20). -/
inductive Dir where
  /-- E: encryption, forward order. -/
  | e
  /-- D: decryption, reversed order. -/
  | d
  deriving DecidableEq, Repr

/-- The sequencer `SEQ = (phase, i, dir)`, which takes the place of a program counter (R29). -/
structure Sequencer where
  phase : Phase
  i : Fin 32
  dir : Dir
  deriving DecidableEq, Repr

/-- The four values of the 2-bit `ERR` (R33, 60_exceptions R180). -/
inductive ErrCode where
  /-- 0: no fault since reset. -/
  | none
  /-- 1: InvalidLength. -/
  | invalidLength
  /-- 2: NoKey. -/
  | noKey
  /-- 3: IllegalCommand. -/
  | illegalCommand
  deriving DecidableEq, Repr

/-- One move of the host: the four interactions of 70_reset R225, and two ways of making none for a while (log 1). -/
inductive HostAction where
  /-- Assert reset (R210). -/
  | reset
  /-- Present the command `(cw, opnd)` and hold it until it is accepted (R31, R216). -/
  | issue (cw : Byte) (opnd : Block)
  /-- Read `STATUS` (R32). -/
  | readStatus
  /-- Read `DOUT` (R24, R217). -/
  | readDout
  /-- Make no move while the engine takes one step. -/
  | pass
  /-- Make no move until `READY = 1` (20_memory R65). -/
  | awaitReady
  deriving DecidableEq, Repr

/-- What one read gave back to the host (R225). -/
inductive HostRead where
  | status (v : Byte)
  | dout (v : Block)
  deriving DecidableEq, Repr

/-- The whole state: R20's registers, flags, `ERR` and sequencer; then the model's own three fields, which are no state of the
spec's engine: the host's schedule, what its reads gave back, and the count of draws of unspecified values. -/
structure State where
  /-- `MK[0..3]`, the bound key (R21). -/
  mkey : Quad
  /-- `RK[0..31]`, the round-key store (R26). -/
  rk : Vector Word 32
  /-- `KW[0..3]`, the key-schedule window (R22). -/
  kw : Quad
  /-- `XW[0..3]`, the data window (R23). -/
  xw : Quad
  /-- `DOUT`, the output register (R24). -/
  dout : Block
  /-- `KEY_BOUND` (R28). -/
  keyBound : Bool
  /-- `EXPANDED` (R28). -/
  expanded : Bool
  /-- `OUT_VALID` (R28). -/
  outValid : Bool
  /-- `ERR` (R33). -/
  err : ErrCode
  /-- `SEQ` (R29). -/
  seq : Sequencer
  /-- The host's moves still to come, next one first (R34, R225; the model's own, log 1). -/
  host : List HostAction
  /-- What the host's reads gave back, oldest first (the model's own, log 1). -/
  reads : List HostRead
  /-- How many draws of unspecified values have been made (the model's own, log 3). -/
  draws : Nat
  deriving DecidableEq, Repr

/-- Reasons to stop with a fault: there is none. Each of the engine's three command faults is a NEXT state (60_exceptions R186),
and every index of every table and store is in range by its type (log 14). -/
inductive Fault where
  deriving DecidableEq, Repr

/-- Reasons to refuse an instruction. -/
inductive Refusal where
  /-- Raised by an arm of `exec` whose instruction has no meaning yet, and by nothing else; no arm raises it now. Safe: a run stops
  where the engine goes on. -/
  | notModelled (mnemonic : String)
  deriving DecidableEq, Repr

/-- DESIGN CHOICE (log 2, unsafe): what a word of a register that R210 leaves unspecified holds in `State.reset`. -/
def resetWord : Word := 0#32

/-- The machine right after reset (R210): flags, `ERR` and `SEQ` as the spec says; `MK`, `RK`, `KW`, `XW`, `DOUT`, which the spec
leaves unspecified, at zero (DESIGN CHOICE, log 2, unsafe); no host move scheduled, nothing read, nothing drawn. -/
def State.reset : State where
  mkey := ⟨resetWord, resetWord, resetWord, resetWord⟩
  rk := Vector.replicate 32 resetWord
  kw := ⟨resetWord, resetWord, resetWord, resetWord⟩
  xw := ⟨resetWord, resetWord, resetWord, resetWord⟩
  dout := 0#128
  keyBound := false
  expanded := false
  outValid := false
  err := .none
  seq := { phase := .idle, i := 0, dir := .e }
  host := []
  reads := []
  draws := 0

end Sys2Proof.Machine
end

