-- ==== Sys2Proof/Machine/Flags.lean ====
section
/-! DEFINITION. What is derived from the flags and the sequencer: `BUSY`, `READY`, the codes of `ERR`, `STATUS` (10_state R28, R31 to R33)
and the key states (R27). -/

namespace Sys2Proof.Machine

/-- `BUSY = (SEQ.phase ≠ IDLE)`, not a stored bit (R28). -/
def State.busy (s : State) : Bool := decide (s.seq.phase ≠ .idle)

/-- `READY = (SEQ.phase = IDLE)` (R31). -/
def State.ready (s : State) : Bool := decide (s.seq.phase = .idle)

/-- The 2-bit code of `ERR` (R33, 60_exceptions R180). -/
def ErrCode.code : ErrCode → BitVec 2
  | .none => 0
  | .invalidLength => 1
  | .noKey => 2
  | .illegalCommand => 3

/-- `STATUS`: bits 7:6 zero, 5:4 `ERR`, 3 `OUT_VALID`, 2 `BUSY`, 1 `EXPANDED`, 0 `KEY_BOUND` (R32). -/
def State.status (s : State) : Byte :=
  0#2 ++ s.err.code ++ BitVec.ofBool s.outValid ++ BitVec.ofBool s.busy ++ BitVec.ofBool s.expanded ++ BitVec.ofBool s.keyBound

/-- The three key states (R27). -/
inductive KeyState where
  | noKey
  | unexpanded
  | expanded
  deriving DecidableEq, Repr

/-- The key state the two flags encode; the combination `KEY_BOUND = 0`, `EXPANDED = 1`, which never occurs, is none (R27). -/
def State.keyState (s : State) : Option KeyState :=
  match s.keyBound, s.expanded with
  | false, false => some .noKey
  | true, false => some .unexpanded
  | true, true => some .expanded
  | false, true => none

end Sys2Proof.Machine
end

