-- ==== Sys2Proof/Machine/Operands.lean ====
section
/-! DEFINITION. The operand forms and byte orders: `Norm` (40_primitives R102), `ZeroPad` (R101), `Words` and its inverse (R112, 00_scope
R10), the placement of bytes in `OPND` (30_encoding R82) and in `DOUT` (R90), and the legal lengths (R84). -/

namespace Sys2Proof.Machine

/-- `SETKEY` and `ENC` take 0 to 16 bytes (R84). -/
def paddedLenLegal (len : BitVec 5) : Bool := decide (len.toNat ≤ 16)

/-- `DEC` takes 16 bytes (R84). -/
def fullLenLegal (len : BitVec 5) : Bool := decide (len.toNat = 16)

/-- `Norm(OPND, len)`: the low `len` bytes kept, the bytes above them zero (R102). -/
def normOpnd (opnd : Block) (len : Nat) : Block := opnd &&& BitVec.ofNat 128 (2 ^ (8 * len) - 1)

/-- `Words(B)`: four big-endian words (R112, R10). -/
def words (b : Block) : Quad :=
  ⟨b.extractLsb' 96 32, b.extractLsb' 64 32, b.extractLsb' 32 32, b.extractLsb' 0 32⟩

/-- `W0 ‖ W1 ‖ W2 ‖ W3`, the inverse of `Words` (R112). -/
def joinWords (q : Quad) : Block := q.w0 ++ q.w1 ++ q.w2 ++ q.w3

/-- Byte `k` of a block, byte 0 most significant: `B[127-8k : 120-8k]` (R10, R90). -/
def byteOf (b : Block) (k : Fin 16) : Byte := b.extractLsb' (120 - 8 * k.val) 8

/-- The 16 bytes of a block, first byte first (R10, R59, R90). -/
def bytesOf (b : Block) : List Byte := (List.finRange 16).map (byteOf b)

/-- A byte sequence right-aligned in 128 bits, the bits above it zero: the last byte is bits 7..0 (R82). -/
def packBytes (d : List Byte) : Block :=
  d.foldl (fun acc b => (acc <<< 8) ||| b.setWidth 128) 0#128

/-- A byte sequence right-aligned in `OPND` with any bits above it (R82, R88): the engine ignores those. -/
def operandOf (filler : Block) (d : List Byte) : Block :=
  (filler <<< (8 * d.length)) ||| packBytes d

/-- `ZeroPad(data, targetBits)` with the reference's 16-byte shortcut (R101). No value outside its domain: `targetBits` not a multiple
of 8, or data longer than the target and not of 16 bytes (93 U2, 90 C2; log 17). -/
def zeroPad (data : List Byte) (targetBits : Nat) : Option (List Byte) :=
  if targetBits % 8 ≠ 0 then none
  else if data.length = 16 then some data
  else if data.length ≤ targetBits / 8 then some (List.replicate (targetBits / 8 - data.length) 0#8 ++ data)
  else none

end Sys2Proof.Machine
end

