-- ==== Sys2Proof/Machine/Ops.lean ====
section
/-! DEFINITION. The named operations over the state: the fault entry (60_exceptions R186), the draws of unspecified values (93 U1), the
reset signal (70_reset R210), the shift of a window, and the host's reads (R225). There is no return from a fault (60_exceptions
R188) and no byte-addressed memory (20_memory R50), so no operation for either. -/

namespace Sys2Proof.Machine

/-- The fault entry: the command is gone, `ERR` takes the code if it was 0, and nothing else changes (R186). -/
def raiseFault (code : ErrCode) (s : State) : State :=
  if s.err = .none then { s with err := code } else s

/-- Four unspecified words of one draw (log 3). -/
def unwrittenQuad (draw at_ : Nat) : Quad :=
  ⟨Config.unwritten draw at_, Config.unwritten draw (at_ + 1), Config.unwritten draw (at_ + 2), Config.unwritten draw (at_ + 3)⟩

/-- An unspecified `MK` (words 0..3 of a draw). -/
def unwrittenMk (draw : Nat) : Quad := unwrittenQuad draw 0

/-- An unspecified `KW` (words 4..7 of a draw). -/
def unwrittenKw (draw : Nat) : Quad := unwrittenQuad draw 4

/-- An unspecified `XW` (words 8..11 of a draw). -/
def unwrittenXw (draw : Nat) : Quad := unwrittenQuad draw 8

/-- An unspecified `DOUT` (words 12..15 of a draw). -/
def unwrittenDout (draw : Nat) : Block := joinWords (unwrittenQuad draw 12)

/-- An unspecified `RK` (words 16..47 of a draw). -/
def unwrittenRk (draw : Nat) : Vector Word 32 := Vector.ofFn fun j => Config.unwritten draw (16 + j.val)

/-- The reset signal, in any state: flags, `ERR` and `SEQ` as R210's table says; `MK`, `RK`, `KW`, `XW`, `DOUT` unspecified, so drawn
afresh (R210, R211; log 4). The host's schedule and what it has read are not the engine's. -/
def resetEngine (s : State) : State :=
  { s with
    mkey := unwrittenMk s.draws
    rk := unwrittenRk s.draws
    kw := unwrittenKw s.draws
    xw := unwrittenXw s.draws
    dout := unwrittenDout s.draws
    keyBound := false
    expanded := false
    outValid := false
    err := .none
    seq := { phase := .idle, i := 0, dir := .e }
    draws := s.draws + 1 }

/-- A four-word window shifts by one word: the oldest leaves, `w` becomes the newest (R133, R155). -/
def shiftIn (q : Quad) (w : Word) : Quad := ⟨q.w1, q.w2, q.w3, w⟩

/-- What a host read of `DOUT` returns: the register if `OUT_VALID = 1`, any value otherwise (R24, R217; log 8). -/
def State.doutRead (s : State) : Block := if s.outValid then s.dout else unwrittenDout s.draws

/-- The host reads `STATUS`; the engine does not change (R32, R225). -/
def hostReadStatus (s : State) : State := { s with reads := s.reads ++ [.status s.status] }

/-- The host reads `DOUT`; the engine does not change, and a draw is used up if the value is any value (R24, R225). -/
def hostReadDout (s : State) : State :=
  { s with reads := s.reads ++ [.dout s.doutRead], draws := if s.outValid then s.draws else s.draws + 1 }

end Sys2Proof.Machine
end

