-- ==== Sys2Proof/Machine/Primitives.lean ====
section
/-! DEFINITION. The combinational functions of 40_primitives (R100, R103 to R108) and the round function F of 42_round_datapath R153.
Each is pure and total on its domain; none reads or writes state, none can fault. -/

namespace Sys2Proof.Machine

/-- `rotl(w, n)` by the document's formula on unbounded integers, masked to 32 bits (R100); meant for `n ≤ 32`. -/
def rotl (w : Word) (n : Nat) : Word :=
  BitVec.ofNat 32 ((w.toNat <<< n) ||| (w.toNat >>> (32 - n)))

/-- `rotl` with its domain: an amount over 32 has no value (R100, 92 D17; log 17). -/
def rotlChecked (w : Word) (n : Nat) : Option Word :=
  if n ≤ 32 then some (rotl w n) else none

/-- `subb(b)`: row = high nibble, column = low nibble (R52, R103). -/
def subb (b : Byte) : Byte :=
  let row : BitVec 4 := b.extractLsb' 4 4
  let col : BitVec 4 := b.extractLsb' 0 4
  sbox[row.toFin][col.toFin]

/-- `tau(w)`: four independent byte lanes, most significant first (R104). -/
def tau (w : Word) : Word :=
  subb (w.extractLsb' 24 8) ++ subb (w.extractLsb' 16 8) ++ subb (w.extractLsb' 8 8) ++ subb (w.extractLsb' 0 8)

/-- `Lp(w)`, the linear transform of key expansion (R105). -/
def linKey (w : Word) : Word := w ^^^ rotl w 13 ^^^ rotl w 23

/-- `L(w)`, the linear transform of the round function (R106). -/
def linEnc (w : Word) : Word := w ^^^ rotl w 2 ^^^ rotl w 10 ^^^ rotl w 18 ^^^ rotl w 24

/-- `Tp(w) = Lp(tau(w))` (R107). -/
def mixKey (w : Word) : Word := linKey (tau w)

/-- `T(w) = L(tau(w))` (R108). -/
def mixEnc (w : Word) : Word := linEnc (tau w)

/-- `F(X0, X1, X2, X3, rk)`, one Feistel step (R153). -/
def roundF (x0 x1 x2 x3 k : Word) : Word := x0 ^^^ mixEnc (x1 ^^^ x2 ^^^ x3 ^^^ k)

end Sys2Proof.Machine
end

