-- ==== Sys2Proof/Machine/KeySchedule.lean ====
section
/-! DEFINITION. `SETKEY` and the key scheduler (41_key_schedule): the key-expansion start and step, and `Expand` as a pure function. -/

namespace Sys2Proof.Machine

/-- Key-expansion start: `K'j = MK[j] ⊕ FK[j]` (R132). -/
def keyStart (m : Quad) : Quad :=
  ⟨m.w0 ^^^ fk.w0, m.w1 ^^^ fk.w1, m.w2 ^^^ fk.w2, m.w3 ^^^ fk.w3⟩

/-- The round key a window `(K'i, …, K'(i+3))` gives under `CK[i]`: the oldest word XOR `Tp` of the others and the constant (R133, R134). -/
def roundKeyOf (k : Quad) (c : Word) : Word := k.w0 ^^^ mixKey (k.w1 ^^^ k.w2 ^^^ k.w3 ^^^ c)

/-- The round keys that a window gives under a list of constants, in order (R134). -/
def expandFrom : List Word → Quad → List Word
  | [], _ => []
  | c :: cs, k => roundKeyOf k c :: expandFrom cs (shiftIn k (roundKeyOf k c))

/-- One round key per constant. -/
theorem expandFrom_length (cs : List Word) (k : Quad) : (expandFrom cs k).length = cs.length := by
  induction cs generalizing k with
  | nil => rfl
  | cons c cs ih => simp [expandFrom, ih]

/-- `Expand(MK)`: the 32 round keys of a key, in forward order (R134). -/
def expand (m : Quad) : Vector Word 32 :=
  ⟨(expandFrom ck.toList (keyStart m)).toArray, by simp [expandFrom_length]⟩

/-- Key-expansion step `i = SEQ.i` (R133). -/
def keyExpansionStep (s : State) : State :=
  let k := roundKeyOf s.kw ck[s.seq.i]
  if h : s.seq.i.val < 31 then
    { s with
      rk := s.rk.set s.seq.i k
      kw := shiftIn s.kw k
      seq := { s.seq with i := ⟨s.seq.i.val + 1, by omega⟩ } }
  else
    { s with
      rk := s.rk.set s.seq.i k
      kw := shiftIn s.kw k
      expanded := true
      seq := { s.seq with phase := .crypt, i := 0 } }

/-- Binding a key: `MK <- Words(P)`, `KEY_BOUND <- 1`, `EXPANDED <- 0`; `RK` is dead from here on, so drawn (R130, 20_memory R68, 90 C12;
log 7). -/
def bindKey (p : Block) (s : State) : State :=
  { s with
    mkey := words p
    keyBound := true
    expanded := false
    rk := unwrittenRk s.draws
    draws := s.draws + 1 }

/-- `SETKEY` (R130). -/
def execSetkey (len : BitVec 5) (opnd : Block) (s : State) : Host.Outcome State Fault Refusal :=
  if !paddedLenLegal len then .next (raiseFault .invalidLength s)
  else .next (bindKey (normOpnd opnd len.toNat) s)

end Sys2Proof.Machine
end

