-- ==== Sys2Proof/Machine/Cipher.lean ====
section
/-! DEFINITION. `ENC` and `DEC` (42_round_datapath): the acceptance step, the round step, and `Crypt` as a pure function. -/

namespace Sys2Proof.Machine

/-- The data window after one round with key `k` (R152, R155). -/
def roundShift (x : Quad) (k : Word) : Quad := shiftIn x (roundF x.w0 x.w1 x.w2 x.w3 k)

/-- The output reversal: the four last words, newest first (R152, R158). -/
def outputBlock (x : Quad) : Block := joinWords ⟨x.w3, x.w2, x.w1, x.w0⟩

/-- `Crypt(B, rk)`: a round per key in the order given, then the output reversal (R152). -/
def crypt (b : Block) (rk : Vector Word 32) : Block := outputBlock (rk.toList.foldl roundShift (words b))

/-- `reverse(rk)[i] = rk[31 − i]`, the order in which decryption consumes the round keys (R152, R156). -/
def reverseKeys (rk : Vector Word 32) : Vector Word 32 := Vector.ofFn fun i => rk[31 - i.val]

/-- The entry of `RK` that a round with index `i` reads: `i` for encryption, `31 − i` for decryption (R58, R155). -/
def roundKeyIndex (dir : Dir) (i : Fin 32) : Fin 32 :=
  match dir with
  | .e => i
  | .d => ⟨31 - i.val, by omega⟩

/-- Round step `i = SEQ.i` (R155). The last one writes `DOUT` and `OUT_VALID` (R158), and `KW` and `XW` are unspecified after it, so
drawn (R22, R23, 93 U1; log 5). -/
def roundStep (s : State) : State :=
  let x := roundShift s.xw s.rk[roundKeyIndex s.seq.dir s.seq.i]
  if h : s.seq.i.val < 31 then
    { s with
      xw := x
      seq := { s.seq with i := ⟨s.seq.i.val + 1, by omega⟩ } }
  else
    { s with
      dout := outputBlock x
      outValid := true
      seq := { s.seq with phase := .idle, i := 0 }
      kw := unwrittenKw s.draws
      xw := unwrittenXw s.draws
      draws := s.draws + 1 }

/-- The acceptance step of a non-faulting `ENC` or `DEC` of block `b`: with `EXPANDED = 0` it starts the key expansion (R154, R131,
R132). -/
def acceptBlock (dir : Dir) (b : Block) (s : State) : State :=
  { s with
    xw := words b
    outValid := false
    kw := if s.expanded then s.kw else keyStart s.mkey
    seq := { phase := if s.expanded then .crypt else .kexp, i := 0, dir := dir } }

/-- `ENC`: its checks in order, then acceptance (R150, R154). The later steps are the sequencer's. -/
def execEnc (len : BitVec 5) (opnd : Block) (s : State) : Host.Outcome State Fault Refusal :=
  if !paddedLenLegal len then .next (raiseFault .invalidLength s)
  else if !s.keyBound then .next (raiseFault .noKey s)
  else .next (acceptBlock .e (normOpnd opnd len.toNat) s)

/-- `DEC`: its checks in order, then acceptance (R151, R154). The later steps are the sequencer's. -/
def execDec (len : BitVec 5) (opnd : Block) (s : State) : Host.Outcome State Fault Refusal :=
  if !fullLenLegal len then .next (raiseFault .invalidLength s)
  else if !s.keyBound then .next (raiseFault .noKey s)
  else .next (acceptBlock .d opnd s)

end Sys2Proof.Machine
end

