-- ==== Sys2Proof/Machine/Dispatch.lean ====
section
/-! DEFINITION. The one dispatch: what accepting a command does. -/

namespace Sys2Proof.Machine

-- Each meaning is the command's acceptance step; the steps that follow it are the sequencer's (log 11).
def exec (i : Instr) (s : State) : Host.Outcome State Fault Refusal :=
  match i with
  | .setkey len opnd => Sys2Proof.Machine.execSetkey len opnd s
  | .enc len opnd => Sys2Proof.Machine.execEnc len opnd s
  | .dec len opnd => Sys2Proof.Machine.execDec len opnd s

end Sys2Proof.Machine
end

