-- ==== Sys2Proof/Machine/Sequencer.lean ====
section
/-! DEFINITION. One step of the machine: the engine's own steps (10_state R29), the acceptance of a command (R31, 30_encoding R86), and
the host's moves (70_reset R225). -/

namespace Sys2Proof.Machine

/-- The engine's own step: a key-expansion step, a round step, or, idle, waiting with all its state kept (R29, 60_exceptions R195). -/
def engineStep (s : State) : State :=
  match s.seq.phase with
  | .idle => s
  | .kexp => keyExpansionStep s
  | .crypt => roundStep s

/-- The acceptance step of a presented command: a reserved `op` raises IllegalCommand (R181), anything else is executed (R86). -/
def acceptCommand (cw : Byte) (opnd : Block) (s : State) : Host.Outcome State Fault Refusal :=
  match decode cw opnd with
  | .ok i => exec i s
  | .error (.reservedOp _) => .next (raiseFault .illegalCommand s)

/-- One step. Reset and reads take effect at once, in any state; a presented command is accepted when the engine is idle, and while it
is busy the command is held and the engine takes its own step (R210, R216, R225). With no host move the engine takes its own step. -/
def advance (s : State) : Host.Outcome State Fault Refusal :=
  match s.host with
  | [] => .next (engineStep s)
  | .reset :: rest => .next (resetEngine { s with host := rest })
  | .issue cw opnd :: rest =>
    if s.ready then acceptCommand cw opnd { s with host := rest } else .next (engineStep s)
  | .readStatus :: rest => .next (hostReadStatus { s with host := rest })
  | .readDout :: rest => .next (hostReadDout { s with host := rest })
  | .pass :: rest => .next (engineStep { s with host := rest })
  | .awaitReady :: rest => if s.ready then .next { s with host := rest } else .next (engineStep s)

/-- Put a command where the very next step accepts it: first on the host's schedule, with the engine idle (log 13). -/
def presentFirst (cw : Byte) (opnd : Block) (s : State) : State :=
  { s with host := .issue cw opnd :: s.host, seq := { s.seq with phase := .idle } }

end Sys2Proof.Machine
end

