-- ==== Sys2Proof/Machine/Step.lean ====
section
/-! DEFINITION. The step of the machine, and the state in which a given command runs next. -/

namespace Sys2Proof.Machine

/-- One step of the engine and its host (`advance`). -/
def step : State → Host.Outcome State Fault Refusal := advance

/-- `s` with the instruction whose table bits are `w` presented so that the very next step accepts it (log 13). -/
def State.withFetchWord (s : State) (nbits w : Nat) : State := presentFirst (tableCw nbits w) (tableOpnd nbits w) s

end Sys2Proof.Machine
end

