-- ==== Sys2Proof/Machine/Host.lean ====
section
/-! DEFINITION. The assembler of 30_encoding R88 and R89: a program line, with its hex bytes already read as bytes, and the host's move it
stands for. -/

namespace Sys2Proof.Machine

/-- A line of a test program (R88). -/
inductive AsmLine where
  /-- `SETKEY <hex bytes>`; the empty sequence is written `-`. -/
  | setkey (d : List Byte)
  /-- `ENC <hex bytes>`. -/
  | enc (d : List Byte)
  /-- `DEC <hex bytes>`. -/
  | dec (d : List Byte)
  /-- `RAW <cw> <hex bytes>`: any command word. -/
  | raw (cw : Byte) (d : List Byte)
  /-- `RESET`: the event, not a command word. -/
  | reset
  deriving DecidableEq, Repr

/-- A command word with `len` the number of bytes written (R88). -/
def asmWord (op : BitVec 3) (d : List Byte) : Byte := op ++ BitVec.ofNat 5 d.length

/-- The host's move a line assembles to: `len` counted, bytes right-aligned, the bits above them anything (R82, R88). A line with more
than 16 bytes (a `DEC` with any other number than 16), which R88 does not write, assembles to nothing. -/
def AsmLine.assemble (filler : Block) : AsmLine → Option HostAction
  | .setkey d => if d.length ≤ 16 then some (.issue (asmWord 0b001#3 d) (operandOf filler d)) else none
  | .enc d => if d.length ≤ 16 then some (.issue (asmWord 0b010#3 d) (operandOf filler d)) else none
  | .dec d => if d.length = 16 then some (.issue (asmWord 0b011#3 d) (operandOf filler d)) else none
  | .raw cw d => if d.length ≤ 16 then some (.issue cw (operandOf filler d)) else none
  | .reset => some .reset

end Sys2Proof.Machine
end

