-- ==== Sys2Proof/Safety.lean ====
section
/-! DEFINITION. What claims about runs are stated in: the invariants of 10_state R27, R28, R30 and 20_memory R66, and a run to the next
idle state, counted in no number of steps (70_reset R222, R226). -/

namespace Sys2Proof.Machine

/-- The fault, if any, that a command word raises in a key state, in the order of 30_encoding R86 (60_exceptions R180 to R185): the
operand has no part in it (R187). -/
def commandFault (cw : Byte) (keyBound : Bool) : Option ErrCode :=
  let op := (cwOp cw).toNat
  let len := (cwLen cw).toNat
  if op ≠ 1 ∧ op ≠ 2 ∧ op ≠ 3 then some .illegalCommand
  else if (op = 1 ∨ op = 2) ∧ 16 < len then some .invalidLength
  else if op = 3 ∧ len ≠ 16 then some .invalidLength
  else if (op = 2 ∨ op = 3) ∧ keyBound = false then some .noKey
  else none

/-- `ERR` after a fault: the first code since reset stays (60_exceptions R186). -/
def errAfter (old code : ErrCode) : ErrCode := if old = .none then code else old

/-- The next step takes a presented command from the port: the engine is idle and the host presents `(cw, opnd)` (10_state R31). -/
def Presented (s : State) (cw : Byte) (opnd : Block) (rest : List HostAction) : Prop :=
  s.seq.phase = .idle ∧ s.host = .issue cw opnd :: rest

/-- The next step accepts the command `i` without a fault (60_exceptions R187). -/
def Accepts (s : State) (i : Instr) : Prop :=
  ∃ cw opnd rest, Presented s cw opnd rest ∧ commandFault cw s.keyBound = none ∧ decode cw opnd = .ok i

/-- The next step consumes a command that faults (60_exceptions R186). -/
def Faults (s : State) (code : ErrCode) : Prop :=
  ∃ cw opnd rest, Presented s cw opnd rest ∧ commandFault cw s.keyBound = some code

/-- The next step is the reset signal (70_reset R210). -/
def Resets (s : State) : Prop := ∃ rest, s.host = .reset :: rest

/-- Two host moves that differ at most in the operand (70_reset R224). -/
def SameMove : HostAction → HostAction → Prop
  | .issue cw _, .issue cw' _ => cw = cw'
  | a, b => a = b

/-- Two states that differ at most in key, block and operand values (70_reset R224). -/
structure SameControl (s s' : State) : Prop where
  keyBound : s.keyBound = s'.keyBound
  expanded : s.expanded = s'.expanded
  outValid : s.outValid = s'.outValid
  err : s.err = s'.err
  seq : s.seq = s'.seq
  host : List.Forall₂ SameMove s.host s'.host

/-- The key-schedule window before step `n` of the expansion of `m`: `(K'n, …, K'(n+3))` (10_state R30, R134). -/
def windowAt (m : Quad) (n : Nat) : Quad :=
  (ck.toList.take n).foldl (fun k c => shiftIn k (roundKeyOf k c)) (keyStart m)

/-- Whenever `EXPANDED = 1` outside KEXP, `RK` holds the round keys of `MK` (R28, R66). -/
def Coherent (s : State) : Prop := s.expanded = true → s.seq.phase ≠ .kexp → s.rk = expand s.mkey

/-- What holds of every state the engine reaches: the key states (R27), the flags against the phase (R28, R30), the index of an idle
sequencer (R29), the windows of a key expansion (R30), and the coherence of `RK` with `MK` (R66). -/
structure EngineInv (s : State) : Prop where
  /-- `KEY_BOUND = 0`, `EXPANDED = 1` never occurs (R27). -/
  expanded_bound : s.expanded = true → s.keyBound = true
  /-- A busy engine has a key bound and no valid output (R154). -/
  busy_bound : s.seq.phase ≠ .idle → s.keyBound = true ∧ s.outValid = false
  /-- An idle sequencer has index 0 (R29). -/
  idle_index : s.seq.phase = .idle → s.seq.i = 0
  /-- During a key expansion `EXPANDED = 0`, `KW` is the window before step `i`, and `RK[j]` is in place for all `j < i` (R30). -/
  kexp_window : s.seq.phase = .kexp →
    s.expanded = false ∧ s.kw = windowAt s.mkey s.seq.i.val ∧ ∀ j : Fin 32, j < s.seq.i → s.rk[j] = (expand s.mkey)[j]
  /-- The rounds run with `EXPANDED = 1` (R30). -/
  crypt_expanded : s.seq.phase = .crypt → s.expanded = true
  /-- R66. -/
  coherent : Coherent s

/-- The host makes no move that acts on a busy engine: its schedule is at its end, or a command is held, or it waits (R216). -/
def hostHolds (s : State) : Bool :=
  match s.host with
  | [] => true
  | .issue _ _ :: _ => true
  | .awaitReady :: _ => true
  | _ => false

/-- `t` is the first idle state of the run from `s` (R226: `BUSY = 0` again). -/
inductive RunsToIdle : State → State → Prop where
  | idle {s : State} : s.seq.phase = .idle → RunsToIdle s s
  | busy {s u t : State} : s.seq.phase ≠ .idle → step s = .next u → RunsToIdle u t → RunsToIdle s t

end Sys2Proof.Machine
end

