-- ==== Sys2Proof/Certificates/Slice0/Obligations.lean ====
section
/-! DEFINITION. Statements about the engine for the provers, one definition each, in the order of the spec's files. Where one names
the host's schedule `host` or the record `reads` of what the host read, that form is the model's choice (log 1); what the spec
leaves unspecified is a free value in the model (log 3), and no statement says anything of such a value. -/

open Sys2Proof Sys2Proof.Machine

/- Encoding (30_encoding). -/

/-- Decoding a command's `(CW, OPND)` pair gives the command back, for every `len` and every operand (R81, R83). -/
def Obligations.DecodeOfEncode : Prop :=
  ∀ i : Instr, decode (encode i).1 (encode i).2 = .ok i

/-- Each pair has one meaning: a decoded command encodes to the pair it came from (R81, R87). -/
def Obligations.EncodeOfDecode : Prop :=
  ∀ (cw : Byte) (opnd : Block) (i : Instr), decode cw opnd = .ok i → encode i = (cw, opnd)

/-- The classes of R85: which of the 256 command words are which command with which legality, and which are reserved. -/
def Obligations.DecodeClassifiesEveryWord : Prop :=
  ∀ (cw : Byte) (opnd : Block),
    (0x20 ≤ cw.toNat ∧ cw.toNat ≤ 0x3F →
      ∃ len, decode cw opnd = .ok (.setkey len opnd) ∧ len.toNat = cw.toNat - 0x20 ∧
        ((Instr.setkey len opnd).wellFormed = true ↔ cw.toNat ≤ 0x30)) ∧
    (0x40 ≤ cw.toNat ∧ cw.toNat ≤ 0x5F →
      ∃ len, decode cw opnd = .ok (.enc len opnd) ∧ len.toNat = cw.toNat - 0x40 ∧
        ((Instr.enc len opnd).wellFormed = true ↔ cw.toNat ≤ 0x50)) ∧
    (0x60 ≤ cw.toNat ∧ cw.toNat ≤ 0x7F →
      ∃ len, decode cw opnd = .ok (.dec len opnd) ∧ len.toNat = cw.toNat - 0x60 ∧
        ((Instr.dec len opnd).wellFormed = true ↔ cw.toNat = 0x70)) ∧
    (cw.toNat ≤ 0x1F ∨ 0x80 ≤ cw.toNat → decode cw opnd = .error (.reservedOp (cwOp cw)))

/-- Words written out from R81 and R83 decode to the commands they stand for (R83's examples). -/
def Obligations.SampleWordsDecode : Prop :=
  decode 0b00110000#8 7#128 = .ok (.setkey 16 7) ∧ decode 0b00100001#8 7#128 = .ok (.setkey 1 7) ∧
  decode 0b01010000#8 7#128 = .ok (.enc 16 7) ∧ decode 0b01000011#8 7#128 = .ok (.enc 3 7) ∧
  decode 0b01110000#8 7#128 = .ok (.dec 16 7) ∧ decode 0x00#8 7#128 = .error (.reservedOp 0) ∧
  decode 0xFF#8 7#128 = .error (.reservedOp 7)

/-- R82: byte `j` of an operand of `n ≤ 16` bytes is `OPND[8(n-j)-1 : 8(n-1-j)]`, whatever stands above the data. -/
def Obligations.OperandBytesRightAligned : Prop :=
  ∀ (filler : Block) (d : List Byte), d.length ≤ 16 → ∀ (j : Nat) (h : j < d.length),
    (operandOf filler d).extractLsb' (8 * (d.length - 1 - j)) 8 = d[j]

/-- R88: an assembled line carries the number of its bytes as `len` and decodes to its command, whose normalised operand is the
zero-padded byte sequence, whatever fills the unused bytes. -/
def Obligations.AssembledLinesDecode : Prop :=
  ∀ (filler : Block) (d : List Byte), d.length ≤ 16 →
    (∃ cw opnd, (AsmLine.setkey d).assemble filler = some (.issue cw opnd) ∧
      decode cw opnd = .ok (.setkey (BitVec.ofNat 5 d.length) opnd) ∧
      some (bytesOf (normOpnd opnd d.length)) = zeroPad d 128) ∧
    (∃ cw opnd, (AsmLine.enc d).assemble filler = some (.issue cw opnd) ∧
      decode cw opnd = .ok (.enc (BitVec.ofNat 5 d.length) opnd) ∧
      some (bytesOf (normOpnd opnd d.length)) = zeroPad d 128) ∧
    (d.length = 16 →
      ∃ cw opnd, (AsmLine.dec d).assemble filler = some (.issue cw opnd) ∧
        decode cw opnd = .ok (.dec 16#5 opnd) ∧ bytesOf opnd = d)

/- Constant tables and primitives (20_memory, 40_primitives). -/

/-- R57: byte `j` of `CK[i]` is `((4i + j)·7) mod 256`, byte 0 most significant. -/
def Obligations.RoundConstantsFollowFormula : Prop :=
  ∀ (i : Fin 32) (j : Fin 4), (ck[i].extractLsb' (24 - 8 * j.val) 8).toNat = (4 * i.val + j.val) * 7 % 256

/-- R52, R103: `subb(b)` is entry `b` of the flat table, row high nibble and column low nibble; the table is a permutation; 0x71 alone
maps to zero and 0xab alone to itself. -/
def Obligations.SubbIsAPermutationTable : Prop :=
  (∀ b : Byte, (sbox.toList.map Vector.toList).flatten[b.toNat]? = some (subb b)) ∧
  Function.Bijective subb ∧ (∀ b : Byte, subb b = 0x00 ↔ b = 0x71) ∧ (∀ b : Byte, subb b = b ↔ b = 0xab)

/-- R104: byte lane `k` of `tau(w)` is `subb` of lane `k` of `w`, so no lane depends on another; `tau` is a bijection. -/
def Obligations.TauActsOnByteLanes : Prop :=
  (∀ (w : Word) (k : Nat), k < 4 → (tau w).extractLsb' (8 * k) 8 = subb (w.extractLsb' (8 * k) 8)) ∧
  (∀ w : Word, tau w = subb (w.extractLsb' 24 8) ++ subb (w.extractLsb' 16 8) ++ subb (w.extractLsb' 8 8) ++
    subb (w.extractLsb' 0 8)) ∧
  Function.Bijective tau ∧ tau 0 = 0xd6d6d6d6 ∧ tau 0xffffffff = 0x48484848 ∧ tau 0x71717171 = 0 ∧
  tau 0x01020304 = 0x90e9fecc ∧ tau 0x12345678 = 0x9ac9da4c ∧ tau 0x000000ff = 0xd6d6d648 ∧ tau 0xff000000 = 0x48d6d6d6

/-- R100: `rotl` by the formula on unbounded integers for amounts 0 to 32, bit `k` of the result being bit `(k − n) mod 32` of `w`; the
identity at both ends; zero and all ones are fixed; an amount over 32 has no value. -/
def Obligations.RotlMovesEveryBit : Prop :=
  ∀ (w : Word) (n : Nat),
    (n ≤ 32 → rotlChecked w n = some (rotl w n) ∧
      (rotl w n).toNat = ((w.toNat * 2 ^ n) ||| (w.toNat / 2 ^ (32 - n))) % 2 ^ 32 ∧
      (∀ k, k < 32 → (rotl w n).getLsbD k = w.getLsbD ((k + 32 - n) % 32)) ∧
      rotl 0 n = 0 ∧ rotl 0xffffffff n = 0xffffffff) ∧
    (32 < n → rotlChecked w n = none) ∧ rotl w 0 = w ∧ rotl w 32 = w

/-- R105, R106: the two linear transforms, by their rotations; each is linear over XOR and fixes zero and all ones. R111: they differ. -/
def Obligations.LinearTransformsAreLinear : Prop :=
  (∀ w : Word, linKey w = w ^^^ rotl w 13 ^^^ rotl w 23) ∧
  (∀ w : Word, linEnc w = w ^^^ rotl w 2 ^^^ rotl w 10 ^^^ rotl w 18 ^^^ rotl w 24) ∧
  (∀ a b : Word, linKey (a ^^^ b) = linKey a ^^^ linKey b) ∧ (∀ a b : Word, linEnc (a ^^^ b) = linEnc a ^^^ linEnc b) ∧
  linKey 0 = 0 ∧ linEnc 0 = 0 ∧ linKey 0xffffffff = 0xffffffff ∧ linEnc 0xffffffff = 0xffffffff ∧
  linKey 1 = 0x00802001 ∧ linEnc 1 = 0x01040405

/-- R107, R108: `Tp = Lp ∘ tau` and `T = L ∘ tau`, with the rules' corner cases and examples. -/
def Obligations.MixingFunctionsCompose : Prop :=
  (∀ w : Word, mixKey w = linKey (tau w)) ∧ (∀ w : Word, mixEnc w = linEnc (tau w)) ∧
  mixKey 0 = 0x67676767 ∧ mixKey 0xffffffff = 0x65656565 ∧ mixEnc 0 = 0x5b5b5b5b ∧ mixEnc 0xffffffff = 0x21212121 ∧
  mixKey 0x12345678 = 0x87cd2df8 ∧ mixKey 0x8283cb69 = 0x53b37958 ∧ mixEnc 0x12345678 = 0xf32f23e8 ∧
  mixEnc 0xf002c39e = 0x26d99622

/-- R102: `Norm` keeps the low `len` bytes and zeroes the rest, so bits above the data have no effect; on an operand that carries `d` it
is `ZeroPad(d, 128)`. -/
def Obligations.NormIsZeroPad : Prop :=
  (∀ (opnd : Block) (len : Nat), len ≤ 16 → (normOpnd opnd len).toNat = opnd.toNat % 2 ^ (8 * len)) ∧
  (∀ opnd : Block, normOpnd opnd 0 = 0 ∧ normOpnd opnd 16 = opnd) ∧
  (∀ (filler : Block) (d : List Byte), d.length ≤ 16 →
    zeroPad d 128 = some (bytesOf (normOpnd (operandOf filler d) d.length)))

/-- R101: `ZeroPad` with the reference's 16-byte shortcut; no value outside its domain. -/
def Obligations.ZeroPadDomain : Prop :=
  ∀ (data : List Byte) (targetBits : Nat),
    (targetBits % 8 ≠ 0 → zeroPad data targetBits = none) ∧
    (targetBits % 8 = 0 → data.length = 16 → zeroPad data targetBits = some data) ∧
    (targetBits % 8 = 0 → data.length ≠ 16 → targetBits / 8 < data.length → zeroPad data targetBits = none) ∧
    (targetBits % 8 = 0 → data.length ≠ 16 → data.length ≤ targetBits / 8 →
      zeroPad data targetBits = some (List.replicate (targetBits / 8 - data.length) 0#8 ++ data)) ∧
    (data.length ≤ 16 → ∃ out, zeroPad data 128 = some out ∧ out.length = 16 ∧ out.drop (16 - data.length) = data ∧
      ∀ b ∈ out.take (16 - data.length), b = 0#8)

/-- R10, R59 (a), R112: the four words of a block are made of its bytes in big-endian order, and concatenation is the inverse of
`Words`. -/
def Obligations.WordsAreBigEndian : Prop :=
  (∀ b : Block,
    (words b).w0 = byteOf b 0 ++ byteOf b 1 ++ byteOf b 2 ++ byteOf b 3 ∧
    (words b).w1 = byteOf b 4 ++ byteOf b 5 ++ byteOf b 6 ++ byteOf b 7 ∧
    (words b).w2 = byteOf b 8 ++ byteOf b 9 ++ byteOf b 10 ++ byteOf b 11 ∧
    (words b).w3 = byteOf b 12 ++ byteOf b 13 ++ byteOf b 14 ++ byteOf b 15) ∧
  (∀ b : Block, joinWords (words b) = b) ∧ (∀ q : Quad, words (joinWords q) = q)

/- Key schedule (41_key_schedule). -/

/-- R134: `Expand(MK)` by its recurrence over the words `K'0 … K'35`. -/
def Obligations.ExpandFollowsRecurrence : Prop :=
  ∀ m : Quad, ∃ K : Nat → Word,
    K 0 = m.w0 ^^^ fk.w0 ∧ K 1 = m.w1 ^^^ fk.w1 ∧ K 2 = m.w2 ^^^ fk.w2 ∧ K 3 = m.w3 ^^^ fk.w3 ∧
    ∀ i : Fin 32,
      (expand m)[i] = K i.val ^^^ linKey (tau (K (i.val + 1) ^^^ K (i.val + 2) ^^^ K (i.val + 3) ^^^ ck[i])) ∧
      K (i.val + 4) = (expand m)[i]

/-- R130: a `SETKEY` of legal length completes in its acceptance step: it binds the normalised key, sets `KEY_BOUND`, clears `EXPANDED`,
and leaves everything else alone but `RK`, of whose content nothing is said. -/
def Obligations.SetkeyBindsTheKey : Prop :=
  ∀ (len : BitVec 5) (opnd : Block) (s : State), len.toNat ≤ 16 →
    ∃ t, exec (.setkey len opnd) s = .next t ∧
      t.mkey.w0 = (normOpnd opnd len.toNat).extractLsb' 96 32 ∧ t.mkey.w1 = (normOpnd opnd len.toNat).extractLsb' 64 32 ∧
      t.mkey.w2 = (normOpnd opnd len.toNat).extractLsb' 32 32 ∧ t.mkey.w3 = (normOpnd opnd len.toNat).extractLsb' 0 32 ∧
      t.keyBound = true ∧ t.expanded = false ∧
      t.kw = s.kw ∧ t.xw = s.xw ∧ t.dout = s.dout ∧ t.outValid = s.outValid ∧ t.err = s.err ∧ t.seq = s.seq ∧
      t.host = s.host ∧ t.reads = s.reads

/-- R133: key-expansion step `i`. -/
def Obligations.KeyExpansionStep : Prop :=
  ∀ s : State, s.seq.phase = .kexp → hostHolds s = true →
    let rk := s.kw.w0 ^^^ linKey (tau (s.kw.w1 ^^^ s.kw.w2 ^^^ s.kw.w3 ^^^ ck[s.seq.i]))
    ∃ t, step s = .next t ∧
      t.rk[s.seq.i] = rk ∧ (∀ j : Fin 32, j ≠ s.seq.i → t.rk[j] = s.rk[j]) ∧
      t.kw = ⟨s.kw.w1, s.kw.w2, s.kw.w3, rk⟩ ∧
      (s.seq.i.val < 31 → t.seq.phase = .kexp ∧ t.seq.i.val = s.seq.i.val + 1 ∧ t.expanded = s.expanded) ∧
      (s.seq.i.val = 31 → t.seq.phase = .crypt ∧ t.seq.i = 0 ∧ t.expanded = true) ∧
      t.seq.dir = s.seq.dir ∧ t.mkey = s.mkey ∧ t.xw = s.xw ∧ t.dout = s.dout ∧ t.keyBound = s.keyBound ∧
      t.outValid = s.outValid ∧ t.err = s.err ∧ t.host = s.host ∧ t.reads = s.reads

/-- R135: from the key-expansion start, performing the step for `i = 0 … 31` leaves `RK = Expand(MK)`. What `KW` holds after it is what
step 31 of R133 writes; R22 calls it unspecified there, and that the model keeps it is log 6. -/
def Obligations.ExpansionStepsEqualExpand : Prop :=
  ∀ s : State, s.seq.phase = .kexp → s.seq.i = 0 → s.kw = keyStart s.mkey →
    let t := keyExpansionStep^[32] s
    t.rk = expand s.mkey ∧ t.expanded = true ∧ t.seq = { phase := .crypt, i := 0, dir := s.seq.dir } ∧
    t.kw = ⟨(expand s.mkey)[28], (expand s.mkey)[29], (expand s.mkey)[30], (expand s.mkey)[31]⟩

/- Rounds and commands (42_round_datapath). -/

/-- R153: `F` and its corner cases; for fixed other words it is its own inverse in `X0`. -/
def Obligations.RoundFunctionIsFeistel : Prop :=
  (∀ x0 x1 x2 x3 k : Word, roundF x0 x1 x2 x3 k = x0 ^^^ linEnc (tau (x1 ^^^ x2 ^^^ x3 ^^^ k))) ∧
  (∀ x0 x1 x2 x3 k : Word, roundF (roundF x0 x1 x2 x3 k) x1 x2 x3 k = x0) ∧ roundF 0 0 0 0 0 = 0x5b5b5b5b

/-- R152: `Crypt(B, rk)` by its recurrence over the words `X0 … X35`, with the output reversal; the reversed key order; the rule's
example. -/
def Obligations.CryptFollowsRecurrence : Prop :=
  (∀ (b : Block) (rk : Vector Word 32), ∃ X : Nat → Word,
    (⟨X 0, X 1, X 2, X 3⟩ : Quad) = words b ∧
    (∀ i : Fin 32, X (i.val + 4) = roundF (X i.val) (X (i.val + 1)) (X (i.val + 2)) (X (i.val + 3)) rk[i]) ∧
    crypt b rk = X 35 ++ X 34 ++ X 33 ++ X 32) ∧
  (∀ (rk : Vector Word 32) (i j : Fin 32), j.val = 31 - i.val → (reverseKeys rk)[i] = rk[j]) ∧
  crypt 0x0123456789abcdeffedcba9876543210 (expand (words 0x0123456789abcdeffedcba9876543210)) =
    0x681edf34d206965e86b3e94f536e4246

/-- R160 for the functions, under any round keys: the reversed order undoes the forward order, and the other way round. -/
def Obligations.ReversedKeysInvertCrypt : Prop :=
  ∀ (b : Block) (rk : Vector Word 32),
    crypt (crypt b rk) (reverseKeys rk) = b ∧ crypt (crypt b (reverseKeys rk)) rk = b

/-- R154, R132: the acceptance step of a non-faulting `ENC` (any legal length) or `DEC` (16 bytes), with all it leaves unchanged. That
`KW` keeps its content when `EXPANDED = 1` is the model's reading (DEDUCED, log 6): R22 calls it unspecified outside KEXP. -/
def Obligations.EncAndDecAcceptance : Prop :=
  ∀ (i : Instr) (dir : Dir) (b : Block) (s : State), s.keyBound = true →
    ((∃ len opnd, i = .enc len opnd ∧ len.toNat ≤ 16 ∧ dir = .e ∧ b = normOpnd opnd len.toNat) ∨
      (∃ len, i = .dec len b ∧ len.toNat = 16 ∧ dir = .d)) →
    ∃ t, exec i s = .next t ∧ t.xw = words b ∧ t.seq.dir = dir ∧ t.outValid = false ∧ t.seq.i = 0 ∧
      (s.expanded = true → t.seq.phase = .crypt ∧ t.kw = s.kw) ∧
      (s.expanded = false → t.seq.phase = .kexp ∧
        t.kw = ⟨s.mkey.w0 ^^^ fk.w0, s.mkey.w1 ^^^ fk.w1, s.mkey.w2 ^^^ fk.w2, s.mkey.w3 ^^^ fk.w3⟩) ∧
      t.mkey = s.mkey ∧ t.rk = s.rk ∧ t.dout = s.dout ∧ t.keyBound = s.keyBound ∧ t.expanded = s.expanded ∧
      t.err = s.err ∧ t.host = s.host ∧ t.reads = s.reads

/-- R155, R156, R158: round step `i`, with the round key of its direction. That `KW` is kept by the steps before the last is the model's
reading and no rule's (DEDUCED, log 6): R22 calls it unspecified outside KEXP. After the last step nothing is said of `KW` and `XW`,
unspecified by R22 and R23 (log 5); that the direction is kept there is log 19. -/
def Obligations.RoundStep : Prop :=
  ∀ s : State, s.seq.phase = .crypt → hostHolds s = true →
    ∃ t j, step s = .next t ∧
      (s.seq.dir = .e → j = s.seq.i) ∧ (s.seq.dir = .d → j.val = 31 - s.seq.i.val) ∧
      (s.seq.i.val < 31 →
        t.xw = ⟨s.xw.w1, s.xw.w2, s.xw.w3, roundF s.xw.w0 s.xw.w1 s.xw.w2 s.xw.w3 s.rk[(j : Fin 32)]⟩ ∧ t.kw = s.kw ∧
        t.seq.phase = .crypt ∧ t.seq.i.val = s.seq.i.val + 1 ∧ t.dout = s.dout ∧ t.outValid = s.outValid) ∧
      (s.seq.i.val = 31 →
        t.dout = roundF s.xw.w0 s.xw.w1 s.xw.w2 s.xw.w3 s.rk[j] ++ s.xw.w3 ++ s.xw.w2 ++ s.xw.w1 ∧
        t.outValid = true ∧ t.seq.phase = .idle ∧ t.seq.i = 0) ∧
      t.seq.dir = s.seq.dir ∧ t.mkey = s.mkey ∧ t.rk = s.rk ∧ t.keyBound = s.keyBound ∧ t.expanded = s.expanded ∧
      t.err = s.err ∧ t.host = s.host ∧ t.reads = s.reads

/-- R150, R159: a non-faulting `ENC`, run to the next idle state, has encrypted the normalised block under the key bound, whether or not
the expansion had run before. That the direction is kept at completion is log 19. -/
def Obligations.EncEndsWithCiphertext : Prop :=
  ∀ (len : BitVec 5) (opnd : Block) (s : State),
    len.toNat ≤ 16 → s.keyBound = true → s.seq.phase = .idle → Coherent s → hostHolds s = true →
    ∃ u t, exec (.enc len opnd) s = .next u ∧ RunsToIdle u t ∧
      t.dout = crypt (normOpnd opnd len.toNat) (expand s.mkey) ∧ t.outValid = true ∧ t.expanded = true ∧
      t.rk = expand s.mkey ∧ t.seq = { phase := .idle, i := 0, dir := .e } ∧ t.mkey = s.mkey ∧ t.keyBound = true ∧
      t.err = s.err ∧ t.host = s.host ∧ t.reads = s.reads

/-- R151, R159: a non-faulting `DEC`, run to the next idle state, has decrypted the whole operand under the key bound. That the
direction is kept at completion is log 19. -/
def Obligations.DecEndsWithPlaintext : Prop :=
  ∀ (len : BitVec 5) (opnd : Block) (s : State),
    len.toNat = 16 → s.keyBound = true → s.seq.phase = .idle → Coherent s → hostHolds s = true →
    ∃ u t, exec (.dec len opnd) s = .next u ∧ RunsToIdle u t ∧
      t.dout = crypt opnd (reverseKeys (expand s.mkey)) ∧ t.outValid = true ∧ t.expanded = true ∧
      t.rk = expand s.mkey ∧ t.seq = { phase := .idle, i := 0, dir := .d } ∧ t.mkey = s.mkey ∧ t.keyBound = true ∧
      t.err = s.err ∧ t.host = s.host ∧ t.reads = s.reads

/-- R160 in the engine: `ENC` of a block and then `DEC` of the `DOUT` it left yields the block, zero-padded if it was short (with
`len = 16` the block itself); `DEC B` and then `ENC` of the result yields `B`. -/
def Obligations.EngineRoundTrip : Prop :=
  ∀ s : State, s.keyBound = true → s.seq.phase = .idle → Coherent s → hostHolds s = true →
    (∀ (len : BitVec 5) (b : Block), len.toNat ≤ 16 →
      ∃ u t v w, exec (.enc len b) s = .next u ∧ RunsToIdle u t ∧
        exec (.dec 16#5 t.dout) t = .next v ∧ RunsToIdle v w ∧ w.dout = normOpnd b len.toNat ∧
        (len = 16#5 → w.dout = b) ∧ w.outValid = true) ∧
    (∀ b : Block, ∃ u t v w, exec (.dec 16#5 b) s = .next u ∧ RunsToIdle u t ∧
      exec (.enc 16#5 t.dout) t = .next v ∧ RunsToIdle v w ∧ w.dout = b ∧ w.outValid = true)

/-- R161, R136: from two states with one key, `ENC`s of operands with one `Norm`, or `DEC`s of one operand, end with one `DOUT`: it depends
not on `XW`, `KW`, the previous `DOUT` or direction, nor on whether the expansion ran in this command or before. A run is determined
by its first state, so the states reached are the only ones. -/
def Obligations.OutputDependsOnKeyAndBlockOnly : Prop :=
  ∀ (s s' : State) (len len' : BitVec 5) (opnd opnd' : Block),
    s.mkey = s'.mkey → s.keyBound = true → s'.keyBound = true → s.seq.phase = .idle → s'.seq.phase = .idle →
    Coherent s → Coherent s' → hostHolds s = true → hostHolds s' = true →
    (len.toNat ≤ 16 → len'.toNat ≤ 16 → normOpnd opnd len.toNat = normOpnd opnd' len'.toNat →
      ∃ u u' t t', exec (.enc len opnd) s = .next u ∧ exec (.enc len' opnd') s' = .next u' ∧ RunsToIdle u t ∧
        RunsToIdle u' t' ∧ t.dout = t'.dout ∧ ∀ w, RunsToIdle u w → w = t) ∧
    (len.toNat = 16 → len'.toNat = 16 → opnd = opnd' →
      ∃ u u' t t', exec (.dec len opnd) s = .next u ∧ exec (.dec len' opnd') s' = .next u' ∧ RunsToIdle u t ∧
        RunsToIdle u' t' ∧ t.dout = t'.dout ∧ ∀ w, RunsToIdle u w → w = t)

/-- R162, R58: the round keys read over a decryption are those read over an encryption in reverse; and the order matters: with the
forward order the known-answer ciphertext does not give its plaintext back. -/
def Obligations.RoundKeyOrderReversed : Prop :=
  (∀ rk : Vector Word 32,
    (List.finRange 32).map (fun i => rk[roundKeyIndex .d i]) =
      ((List.finRange 32).map (fun i => rk[roundKeyIndex .e i])).reverse) ∧
  (∀ i : Fin 32, (roundKeyIndex .e i).val = i.val ∧ (roundKeyIndex .d i).val = 31 - i.val) ∧
  crypt 0x681edf34d206965e86b3e94f536e4246 (expand (words 0x0123456789abcdeffedcba9876543210)) =
    0xf324184f3c8892b72bdc9d7c612919de

/-- R158: when round step 31 completes, `DOUT` is the four last words, newest first, and `OUT_VALID` rises in the same step. -/
def Obligations.OutputWrittenInOneStep : Prop :=
  ∀ s : State, s.seq.phase = .crypt → s.seq.i.val = 31 → hostHolds s = true →
    ∃ t, step s = .next t ∧ t.outValid = true ∧
      t.dout.extractLsb' 96 32 =
        roundF s.xw.w0 s.xw.w1 s.xw.w2 s.xw.w3 s.rk[roundKeyIndex s.seq.dir s.seq.i] ∧
      t.dout.extractLsb' 64 32 = s.xw.w3 ∧ t.dout.extractLsb' 32 32 = s.xw.w2 ∧ t.dout.extractLsb' 0 32 = s.xw.w1

/- Faults (60_exceptions). -/

/-- R182, R186: a `SETKEY` or `ENC` of more than 16 bytes, or a `DEC` of any other number than 16, raises InvalidLength, whatever the key
state: `ERR` takes the code if it was 0, and nothing else changes. -/
def Obligations.BadLengthFaults : Prop :=
  ∀ (len : BitVec 5) (opnd : Block) (s : State),
    (16 < len.toNat → exec (.setkey len opnd) s = .next { s with err := errAfter s.err .invalidLength }) ∧
    (16 < len.toNat → exec (.enc len opnd) s = .next { s with err := errAfter s.err .invalidLength }) ∧
    (len.toNat ≠ 16 → exec (.dec len opnd) s = .next { s with err := errAfter s.err .invalidLength })

/-- R183, R186: an `ENC` or `DEC` of legal length with no key bound raises NoKey and changes nothing but `ERR`. -/
def Obligations.NoKeyFaults : Prop :=
  ∀ (len : BitVec 5) (opnd : Block) (s : State), s.keyBound = false →
    (len.toNat ≤ 16 → exec (.enc len opnd) s = .next { s with err := errAfter s.err .noKey }) ∧
    (len.toNat = 16 → exec (.dec len opnd) s = .next { s with err := errAfter s.err .noKey })

/-- R181, R186: a presented command word whose `op` is 0, 4, 5, 6 or 7 is consumed and raises IllegalCommand, whatever `len`, operand and
key state; nothing else changes. -/
def Obligations.ReservedOpFaults : Prop :=
  ∀ (s : State) (cw : Byte) (opnd : Block) (rest : List HostAction), Presented s cw opnd rest →
    (cwOp cw = 0 ∨ cwOp cw = 4 ∨ cwOp cw = 5 ∨ cwOp cw = 6 ∨ cwOp cw = 7) →
    step s = .next { s with host := rest, err := errAfter s.err .illegalCommand }

/-- R86, R185, R187: a presented command either raises exactly one fault, the first in the decode order, and changes nothing but `ERR`; or
it decodes to a well-formed command that is executed. The fault depends on `CW` and `KEY_BOUND` alone. -/
def Obligations.FaultsArePreciseAndPrioritised : Prop :=
  ∀ (s : State) (cw : Byte) (opnd : Block) (rest : List HostAction), Presented s cw opnd rest →
    (∀ code, commandFault cw s.keyBound = some code →
      step s = .next { s with host := rest, err := errAfter s.err code }) ∧
    (commandFault cw s.keyBound = none →
      ∃ i t, decode cw opnd = .ok i ∧ i.wellFormed = true ∧ exec i { s with host := rest } = .next t ∧ step s = .next t ∧
        t.err = s.err ∧ t.host = rest)

/-- R33, R188: the codes of `ERR`; it changes only from 0, by a faulting command, to that fault's code, and by reset, to 0. -/
def Obligations.ErrIsStickyUntilReset : Prop :=
  (ErrCode.none.code = 0 ∧ ErrCode.invalidLength.code = 1 ∧ ErrCode.noKey.code = 2 ∧ ErrCode.illegalCommand.code = 3) ∧
  ∀ s t : State, step s = .next t →
    (s.err ≠ .none → ¬ Resets s → t.err = s.err) ∧ (Resets s → t.err = .none) ∧
    (s.err = .none → t.err ≠ .none → Faults s t.err) ∧ (s.err = .none → ∀ code, Faults s code → t.err = code)

/- State and sequencer (10_state). -/

/-- R27: the key states, their flags, and their transitions. -/
def Obligations.KeyStateTransitions : Prop :=
  (∀ s : State, (s.keyState = some .noKey ↔ s.keyBound = false ∧ s.expanded = false) ∧
    (s.keyState = some .unexpanded ↔ s.keyBound = true ∧ s.expanded = false) ∧
    (s.keyState = some .expanded ↔ s.keyBound = true ∧ s.expanded = true)) ∧
  ∀ s t : State, EngineInv s → step s = .next t →
    s.keyState ≠ none ∧ (Resets s → t.keyState = some .noKey) ∧
    (s.seq.phase = .kexp → s.seq.i.val = 31 → hostHolds s = true → t.keyState = some .expanded) ∧
    (∀ len opnd, Accepts s (.setkey len opnd) → t.keyState = some .unexpanded) ∧
    (∀ len opnd, Accepts s (.enc len opnd) ∨ Accepts s (.dec len opnd) → s.keyState = some .unexpanded →
      t.seq.phase = .kexp ∧ t.seq.i = 0 ∧ t.keyState = some .unexpanded) ∧
    (∀ code, Faults s code → t.keyState = s.keyState) ∧
    (t.keyState = s.keyState ∨ Resets s ∨ (∃ len opnd, Accepts s (.setkey len opnd)) ∨
      (s.seq.phase = .kexp ∧ s.seq.i.val = 31 ∧ s.keyState = some .unexpanded ∧ t.keyState = some .expanded))

/-- R28: what sets and clears each flag. -/
def Obligations.FlagsChangeOnlyAsListed : Prop :=
  ∀ s t : State, step s = .next t →
    (s.keyBound = false → t.keyBound = true → ∃ len opnd, Accepts s (.setkey len opnd)) ∧
    (s.keyBound = true → t.keyBound = false → Resets s) ∧
    (s.expanded = false → t.expanded = true → s.seq.phase = .kexp ∧ s.seq.i.val = 31) ∧
    (s.expanded = true → t.expanded = false → Resets s ∨ ∃ len opnd, Accepts s (.setkey len opnd)) ∧
    (s.outValid = false → t.outValid = true → s.seq.phase = .crypt ∧ s.seq.i.val = 31) ∧
    (s.outValid = true → t.outValid = false →
      Resets s ∨ (∃ len opnd, Accepts s (.enc len opnd)) ∨ ∃ len opnd, Accepts s (.dec len opnd))

/-- R29: how each event advances `SEQ`, row by row. R29 latches `dir` at acceptance and has no row that changes it at completion; that it is
kept there is the model's reading (DEDUCED, log 19). -/
def Obligations.SequencerWalk : Prop :=
  ∀ s t : State, step s = .next t →
    (∀ len opnd, Accepts s (.setkey len opnd) → t.seq = s.seq) ∧
    (∀ code, Faults s code → t.seq = s.seq) ∧
    (∀ len opnd, Accepts s (.enc len opnd) →
      t.seq = { phase := if s.expanded then .crypt else .kexp, i := 0, dir := .e }) ∧
    (∀ len opnd, Accepts s (.dec len opnd) →
      t.seq = { phase := if s.expanded then .crypt else .kexp, i := 0, dir := .d }) ∧
    (hostHolds s = true → s.seq.phase = .kexp → s.seq.i.val < 31 →
      t.seq.phase = .kexp ∧ t.seq.i.val = s.seq.i.val + 1 ∧ t.seq.dir = s.seq.dir) ∧
    (hostHolds s = true → s.seq.phase = .kexp → s.seq.i.val = 31 →
      t.seq = { phase := .crypt, i := 0, dir := s.seq.dir }) ∧
    (hostHolds s = true → s.seq.phase = .crypt → s.seq.i.val < 31 →
      t.seq.phase = .crypt ∧ t.seq.i.val = s.seq.i.val + 1 ∧ t.seq.dir = s.seq.dir) ∧
    (hostHolds s = true → s.seq.phase = .crypt → s.seq.i.val = 31 →
      t.seq = { phase := .idle, i := 0, dir := s.seq.dir }) ∧
    (Resets s → t.seq = { phase := .idle, i := 0, dir := .e })

/-- R21, R66 (b): `MK` changes only by an accepted `SETKEY`, which binds its normalised operand, and by reset. -/
def Obligations.KeyChangesOnlyBySetkeyOrReset : Prop :=
  ∀ s t : State, step s = .next t → t.mkey ≠ s.mkey →
    Resets s ∨ ∃ len opnd, Accepts s (.setkey len opnd) ∧ t.mkey = words (normOpnd opnd len.toNat)

/-- R26: outside SETKEY and reset, which leave `RK` unspecified, only key-expansion step `i` writes `RK`, and only its entry `i`. -/
def Obligations.RoundKeysWrittenOnlyByExpansion : Prop :=
  ∀ s t : State, step s = .next t → t.rk ≠ s.rk →
    Resets s ∨ (∃ len opnd, Accepts s (.setkey len opnd)) ∨
      (s.seq.phase = .kexp ∧ ∀ j : Fin 32, j ≠ s.seq.i → t.rk[j] = s.rk[j])

/-- R24, R225: `DOUT` changes only in the last round step of an `ENC` or `DEC` and by reset; and in every state the invariant allows, it
does not change while `OUT_VALID = 1` but by reset. -/
def Obligations.OutputChangesOnlyInLastRound : Prop :=
  ∀ s t : State, step s = .next t → t.dout ≠ s.dout →
    (Resets s ∨ (s.seq.phase = .crypt ∧ s.seq.i.val = 31)) ∧ (EngineInv s → s.outValid = true → Resets s)

/-- R32: the bits of `STATUS`; a host read returns it, at any time, and changes nothing in the engine; its reset value is 0x00. -/
def Obligations.StatusReadAtAnyTime : Prop :=
  (∀ s : State,
    s.status.getLsbD 0 = s.keyBound ∧ s.status.getLsbD 1 = s.expanded ∧
    (s.status.getLsbD 2 = true ↔ s.seq.phase ≠ .idle) ∧ s.status.getLsbD 3 = s.outValid ∧
    s.status.extractLsb' 4 2 = s.err.code ∧ s.status.extractLsb' 6 2 = 0) ∧
  (∀ (s : State) (rest : List HostAction), s.host = .readStatus :: rest →
    step s = .next { s with host := rest, reads := s.reads ++ [.status s.status] }) ∧
  State.reset.status = 0x00

/- Reset, hazards, the host (70_reset_and_hazards). -/

/-- R210: the state right after reset, in the values the spec gives. -/
def Obligations.ResetStateAsTabulated : Prop :=
  State.reset.seq = { phase := .idle, i := 0, dir := .e } ∧ State.reset.keyBound = false ∧ State.reset.expanded = false ∧
  State.reset.outValid = false ∧ State.reset.busy = false ∧ State.reset.ready = true ∧ State.reset.err = .none ∧
  State.reset.err.code = 0 ∧ State.reset.status = 0x00 ∧ State.reset.keyState = some .noKey

/-- R210, R211: the reset signal, whatever the engine is doing: the values the spec gives, and no step of the command in flight after
it. -/
def Obligations.ResetSignalFromAnyState : Prop :=
  ∀ (s : State) (rest : List HostAction), s.host = .reset :: rest →
    ∃ t, step s = .next t ∧ t.seq = { phase := .idle, i := 0, dir := .e } ∧ t.keyBound = false ∧ t.expanded = false ∧
      t.outValid = false ∧ t.err = .none ∧ t.busy = false ∧ t.ready = true ∧ t.status = 0x00 ∧
      t.keyState = some .noKey ∧ t.host = rest ∧ t.reads = s.reads

/-- The reset state meets the invariant (R210, R27, R28, R30). -/
def Obligations.ResetMeetsInvariant : Prop := EngineInv State.reset

/-- R27, R28, R30, R66: every step keeps the invariant, from every state that meets it. -/
def Obligations.StepKeepsInvariant : Prop :=
  ∀ s t : State, EngineInv s → step s = .next t → EngineInv t

/-- R216, R31, R218: a command presented while the engine is busy is held: neither accepted nor faulted, it stays presented, and the
engine takes the same step of its own whatever command is held, or none. The direction is kept; that it is kept at completion too is
log 19 (DEDUCED). -/
def Obligations.BusyEngineHoldsCommands : Prop :=
  ∀ (s : State) (cw : Byte) (opnd : Block) (rest : List HostAction), s.seq.phase ≠ .idle → s.host = .issue cw opnd :: rest →
    ∃ t, step s = .next t ∧ t.host = s.host ∧ t.err = s.err ∧ t.mkey = s.mkey ∧ t.keyBound = s.keyBound ∧
      t.seq ≠ s.seq ∧ t.seq.dir = s.seq.dir ∧
      ∀ other : List HostAction, hostHolds { s with host := other } = true →
        step { s with host := other } = .next { t with host := other }

/-- R31: in IDLE the next step runs the command presented (one move of the host's schedule, log 1): when it decodes
to `i`, the step is `exec` of `i` on the state with the command taken from the port. -/
def Obligations.StepRunsDecodedCommand : Prop :=
  ∀ (s : State) (cw : Byte) (opnd : Block) (rest : List HostAction) (i : Instr),
    Presented s cw opnd rest → decode cw opnd = .ok i → step s = exec i { s with host := rest }

/-- R157, R222: a busy engine whose host makes no move returns to IDLE, whatever its state. -/
def Obligations.EveryCommandCompletes : Prop :=
  ∀ s : State, hostHolds s = true → ∃ t, RunsToIdle s t ∧ t.seq.phase = .idle ∧ t.host = s.host ∧ t.err = s.err ∧ t.mkey = s.mkey

/-- The model's choice (log 12: an idle engine with nothing presented takes a step that changes nothing; log 14: no step faults or
refuses): every state has a next state, whatever the host does. It rests on there being no trap, halt or lock-up in 60_exceptions. -/
def Obligations.StepNeverStops : Prop := ∀ s : State, ∃ t, step s = .next t

/-- R24, R217, R225: a host read of `DOUT` returns the register while `OUT_VALID = 1`, and changes nothing in the engine in any state; of the
value read while `OUT_VALID = 0` nothing is said. -/
def Obligations.DoutReadAtAnyTime : Prop :=
  ∀ (s : State) (rest : List HostAction), s.host = .readDout :: rest →
    ∃ t v, step s = .next t ∧ t.reads = s.reads ++ [.dout v] ∧ (s.outValid = true → v = s.dout) ∧
      t.mkey = s.mkey ∧ t.rk = s.rk ∧ t.kw = s.kw ∧ t.xw = s.xw ∧ t.dout = s.dout ∧ t.keyBound = s.keyBound ∧
      t.expanded = s.expanded ∧ t.outValid = s.outValid ∧ t.err = s.err ∧ t.seq = s.seq ∧ t.host = rest

/-- 60_exceptions R195: an idle engine with no command presented waits and keeps all its state; that this is a step of its own is the
model's choice (log 12). -/
def Obligations.IdleEngineWaits : Prop :=
  ∀ s : State, s.seq.phase = .idle → s.host = [] → step s = .next s

/-- R224, R157, 10_state R37: the sequence of steps, `STATUS` and `READY` depend only on command words and flags, never on key, block or
operand values. -/
def Obligations.ControlIsDataIndependent : Prop :=
  ∀ s s' t t' : State, SameControl s s' → step s = .next t → step s' = .next t' →
    SameControl t t' ∧ t.status = t'.status ∧ t.ready = t'.ready
end

