-- ==== Sys2Proof/Laws/KeySchedule.lean ====
section
/-! SUPPORT. The windows and the round keys of an expansion, one step at a time. -/

namespace Sys2Proof.Machine

/-- The window before the first step is the key-expansion start. -/
@[simp] theorem windowAt_zero (m : Quad) : windowAt m 0 = keyStart m := rfl

/-- One step shifts the round key of the window into it. -/
theorem windowAt_succ (m : Quad) (n : Nat) (h : n < 32) :
    windowAt m (n + 1) = shiftIn (windowAt m n) (roundKeyOf (windowAt m n) ck[n]) := by
  unfold windowAt
  rw [List.take_add_one, List.foldl_append, show ck.toList[n]? = some ck[n] by simp [h]]
  rfl

/-- Entry `n` of an expansion over any list of constants. -/
theorem expandFrom_getElem (cs : List Word) (k : Quad) (n : Nat) (h : n < cs.length) :
    (expandFrom cs k)[n]'(by rw [expandFrom_length]; exact h) =
      roundKeyOf ((cs.take n).foldl (fun k c => shiftIn k (roundKeyOf k c)) k) cs[n] := by
  induction cs generalizing k n with
  | nil => simp at h
  | cons c cs ih =>
    cases n with
    | zero => rfl
    | succ n => simpa [expandFrom] using ih _ n (by simpa using h)

/-- Round key `n` is the one the window before step `n` gives. -/
theorem expand_getElem (m : Quad) (n : Nat) (h : n < 32) : (expand m)[n] = roundKeyOf (windowAt m n) ck[n] := by
  have key := expandFrom_getElem ck.toList (keyStart m) n (by simpa using h)
  rw [Vector.getElem_toList] at key
  simpa [expand, windowAt] using key

end Sys2Proof.Machine
end

