-- ==== Sys2Proof/Laws/PerInstr.lean ====
section
/-! SUPPORT. The fields of an encoded command word, one lemma per command (30_encoding R81, R83). -/

namespace Sys2Proof.Laws.EncodedWord

/-- What the fields of a command's word are. -/
def Statement : Instr → Prop
  | .setkey len opnd => cwOp (encode (.setkey len opnd)).1 = 1 ∧ cwLen (encode (.setkey len opnd)).1 = len
  | .enc len opnd => cwOp (encode (.enc len opnd)).1 = 2 ∧ cwLen (encode (.enc len opnd)).1 = len
  | .dec len opnd => cwOp (encode (.dec len opnd)).1 = 3 ∧ cwLen (encode (.dec len opnd)).1 = len

/-- `SETKEY`'s word has `op = 1`. -/
theorem setkey (len : BitVec 5) (opnd : Block) : Statement (.setkey len opnd) := by
  have fields : ∀ l : BitVec 5, cwOp (0b001#3 ++ l) = 1 ∧ cwLen (0b001#3 ++ l) = l := by decide
  exact fields len

/-- `ENC`'s word has `op = 2`. -/
theorem enc (len : BitVec 5) (opnd : Block) : Statement (.enc len opnd) := by
  have fields : ∀ l : BitVec 5, cwOp (0b010#3 ++ l) = 2 ∧ cwLen (0b010#3 ++ l) = l := by decide
  exact fields len

/-- `DEC`'s word has `op = 3`. -/
theorem dec (len : BitVec 5) (opnd : Block) : Statement (.dec len opnd) := by
  have fields : ∀ l : BitVec 5, cwOp (0b011#3 ++ l) = 3 ∧ cwLen (0b011#3 ++ l) = l := by decide
  exact fields len

end Sys2Proof.Laws.EncodedWord
end

