-- ==== Sys2Proof/Laws/State.lean ====
section
/-! SUPPORT. One lemma per field per operation on the state: what each operation of the machine writes, and that it leaves the other
fields alone. -/

namespace Sys2Proof.Machine

@[simp] theorem raiseFault_mkey (c : ErrCode) (s : State) : (raiseFault c s).mkey = s.mkey := by unfold raiseFault; split <;> rfl
@[simp] theorem raiseFault_rk (c : ErrCode) (s : State) : (raiseFault c s).rk = s.rk := by unfold raiseFault; split <;> rfl
@[simp] theorem raiseFault_kw (c : ErrCode) (s : State) : (raiseFault c s).kw = s.kw := by unfold raiseFault; split <;> rfl
@[simp] theorem raiseFault_xw (c : ErrCode) (s : State) : (raiseFault c s).xw = s.xw := by unfold raiseFault; split <;> rfl
@[simp] theorem raiseFault_dout (c : ErrCode) (s : State) : (raiseFault c s).dout = s.dout := by unfold raiseFault; split <;> rfl
@[simp] theorem raiseFault_keyBound (c : ErrCode) (s : State) : (raiseFault c s).keyBound = s.keyBound := by unfold raiseFault; split <;> rfl
@[simp] theorem raiseFault_expanded (c : ErrCode) (s : State) : (raiseFault c s).expanded = s.expanded := by unfold raiseFault; split <;> rfl
@[simp] theorem raiseFault_outValid (c : ErrCode) (s : State) : (raiseFault c s).outValid = s.outValid := by unfold raiseFault; split <;> rfl
@[simp] theorem raiseFault_seq (c : ErrCode) (s : State) : (raiseFault c s).seq = s.seq := by unfold raiseFault; split <;> rfl
@[simp] theorem raiseFault_host (c : ErrCode) (s : State) : (raiseFault c s).host = s.host := by unfold raiseFault; split <;> rfl
@[simp] theorem raiseFault_reads (c : ErrCode) (s : State) : (raiseFault c s).reads = s.reads := by unfold raiseFault; split <;> rfl
@[simp] theorem raiseFault_draws (c : ErrCode) (s : State) : (raiseFault c s).draws = s.draws := by unfold raiseFault; split <;> rfl
@[simp] theorem raiseFault_err (c : ErrCode) (s : State) : (raiseFault c s).err = if s.err = .none then c else s.err := by unfold raiseFault; split <;> rfl

@[simp] theorem resetEngine_mkey (s : State) : (resetEngine s).mkey = unwrittenMk s.draws := rfl
@[simp] theorem resetEngine_rk (s : State) : (resetEngine s).rk = unwrittenRk s.draws := rfl
@[simp] theorem resetEngine_kw (s : State) : (resetEngine s).kw = unwrittenKw s.draws := rfl
@[simp] theorem resetEngine_xw (s : State) : (resetEngine s).xw = unwrittenXw s.draws := rfl
@[simp] theorem resetEngine_dout (s : State) : (resetEngine s).dout = unwrittenDout s.draws := rfl
@[simp] theorem resetEngine_keyBound (s : State) : (resetEngine s).keyBound = false := rfl
@[simp] theorem resetEngine_expanded (s : State) : (resetEngine s).expanded = false := rfl
@[simp] theorem resetEngine_outValid (s : State) : (resetEngine s).outValid = false := rfl
@[simp] theorem resetEngine_err (s : State) : (resetEngine s).err = .none := rfl
@[simp] theorem resetEngine_seq (s : State) : (resetEngine s).seq = { phase := .idle, i := 0, dir := .e } := rfl
@[simp] theorem resetEngine_host (s : State) : (resetEngine s).host = s.host := rfl
@[simp] theorem resetEngine_reads (s : State) : (resetEngine s).reads = s.reads := rfl
@[simp] theorem resetEngine_draws (s : State) : (resetEngine s).draws = s.draws + 1 := rfl

@[simp] theorem bindKey_mkey (p : Block) (s : State) : (bindKey p s).mkey = words p := rfl
@[simp] theorem bindKey_rk (p : Block) (s : State) : (bindKey p s).rk = unwrittenRk s.draws := rfl
@[simp] theorem bindKey_kw (p : Block) (s : State) : (bindKey p s).kw = s.kw := rfl
@[simp] theorem bindKey_xw (p : Block) (s : State) : (bindKey p s).xw = s.xw := rfl
@[simp] theorem bindKey_dout (p : Block) (s : State) : (bindKey p s).dout = s.dout := rfl
@[simp] theorem bindKey_keyBound (p : Block) (s : State) : (bindKey p s).keyBound = true := rfl
@[simp] theorem bindKey_expanded (p : Block) (s : State) : (bindKey p s).expanded = false := rfl
@[simp] theorem bindKey_outValid (p : Block) (s : State) : (bindKey p s).outValid = s.outValid := rfl
@[simp] theorem bindKey_err (p : Block) (s : State) : (bindKey p s).err = s.err := rfl
@[simp] theorem bindKey_seq (p : Block) (s : State) : (bindKey p s).seq = s.seq := rfl
@[simp] theorem bindKey_host (p : Block) (s : State) : (bindKey p s).host = s.host := rfl
@[simp] theorem bindKey_reads (p : Block) (s : State) : (bindKey p s).reads = s.reads := rfl
@[simp] theorem bindKey_draws (p : Block) (s : State) : (bindKey p s).draws = s.draws + 1 := rfl

@[simp] theorem acceptBlock_mkey (dir : Dir) (b : Block) (s : State) : (acceptBlock dir b s).mkey = s.mkey := rfl
@[simp] theorem acceptBlock_rk (dir : Dir) (b : Block) (s : State) : (acceptBlock dir b s).rk = s.rk := rfl
@[simp] theorem acceptBlock_kw (dir : Dir) (b : Block) (s : State) : (acceptBlock dir b s).kw = if s.expanded then s.kw else keyStart s.mkey := rfl
@[simp] theorem acceptBlock_xw (dir : Dir) (b : Block) (s : State) : (acceptBlock dir b s).xw = words b := rfl
@[simp] theorem acceptBlock_dout (dir : Dir) (b : Block) (s : State) : (acceptBlock dir b s).dout = s.dout := rfl
@[simp] theorem acceptBlock_keyBound (dir : Dir) (b : Block) (s : State) : (acceptBlock dir b s).keyBound = s.keyBound := rfl
@[simp] theorem acceptBlock_expanded (dir : Dir) (b : Block) (s : State) : (acceptBlock dir b s).expanded = s.expanded := rfl
@[simp] theorem acceptBlock_outValid (dir : Dir) (b : Block) (s : State) : (acceptBlock dir b s).outValid = false := rfl
@[simp] theorem acceptBlock_err (dir : Dir) (b : Block) (s : State) : (acceptBlock dir b s).err = s.err := rfl
@[simp] theorem acceptBlock_seq (dir : Dir) (b : Block) (s : State) : (acceptBlock dir b s).seq = { phase := if s.expanded then .crypt else .kexp, i := 0, dir := dir } := rfl
@[simp] theorem acceptBlock_host (dir : Dir) (b : Block) (s : State) : (acceptBlock dir b s).host = s.host := rfl
@[simp] theorem acceptBlock_reads (dir : Dir) (b : Block) (s : State) : (acceptBlock dir b s).reads = s.reads := rfl
@[simp] theorem acceptBlock_draws (dir : Dir) (b : Block) (s : State) : (acceptBlock dir b s).draws = s.draws := rfl

@[simp] theorem hostReadStatus_mkey (s : State) : (hostReadStatus s).mkey = s.mkey := rfl
@[simp] theorem hostReadStatus_rk (s : State) : (hostReadStatus s).rk = s.rk := rfl
@[simp] theorem hostReadStatus_kw (s : State) : (hostReadStatus s).kw = s.kw := rfl
@[simp] theorem hostReadStatus_xw (s : State) : (hostReadStatus s).xw = s.xw := rfl
@[simp] theorem hostReadStatus_dout (s : State) : (hostReadStatus s).dout = s.dout := rfl
@[simp] theorem hostReadStatus_keyBound (s : State) : (hostReadStatus s).keyBound = s.keyBound := rfl
@[simp] theorem hostReadStatus_expanded (s : State) : (hostReadStatus s).expanded = s.expanded := rfl
@[simp] theorem hostReadStatus_outValid (s : State) : (hostReadStatus s).outValid = s.outValid := rfl
@[simp] theorem hostReadStatus_err (s : State) : (hostReadStatus s).err = s.err := rfl
@[simp] theorem hostReadStatus_seq (s : State) : (hostReadStatus s).seq = s.seq := rfl
@[simp] theorem hostReadStatus_host (s : State) : (hostReadStatus s).host = s.host := rfl
@[simp] theorem hostReadStatus_reads (s : State) : (hostReadStatus s).reads = s.reads ++ [.status s.status] := rfl
@[simp] theorem hostReadStatus_draws (s : State) : (hostReadStatus s).draws = s.draws := rfl

@[simp] theorem hostReadDout_mkey (s : State) : (hostReadDout s).mkey = s.mkey := rfl
@[simp] theorem hostReadDout_rk (s : State) : (hostReadDout s).rk = s.rk := rfl
@[simp] theorem hostReadDout_kw (s : State) : (hostReadDout s).kw = s.kw := rfl
@[simp] theorem hostReadDout_xw (s : State) : (hostReadDout s).xw = s.xw := rfl
@[simp] theorem hostReadDout_dout (s : State) : (hostReadDout s).dout = s.dout := rfl
@[simp] theorem hostReadDout_keyBound (s : State) : (hostReadDout s).keyBound = s.keyBound := rfl
@[simp] theorem hostReadDout_expanded (s : State) : (hostReadDout s).expanded = s.expanded := rfl
@[simp] theorem hostReadDout_outValid (s : State) : (hostReadDout s).outValid = s.outValid := rfl
@[simp] theorem hostReadDout_err (s : State) : (hostReadDout s).err = s.err := rfl
@[simp] theorem hostReadDout_seq (s : State) : (hostReadDout s).seq = s.seq := rfl
@[simp] theorem hostReadDout_host (s : State) : (hostReadDout s).host = s.host := rfl
@[simp] theorem hostReadDout_reads (s : State) : (hostReadDout s).reads = s.reads ++ [.dout s.doutRead] := rfl
@[simp] theorem hostReadDout_draws (s : State) : (hostReadDout s).draws = if s.outValid then s.draws else s.draws + 1 := rfl

@[simp] theorem presentFirst_mkey (cw : Byte) (b : Block) (s : State) : (presentFirst cw b s).mkey = s.mkey := rfl
@[simp] theorem presentFirst_rk (cw : Byte) (b : Block) (s : State) : (presentFirst cw b s).rk = s.rk := rfl
@[simp] theorem presentFirst_kw (cw : Byte) (b : Block) (s : State) : (presentFirst cw b s).kw = s.kw := rfl
@[simp] theorem presentFirst_xw (cw : Byte) (b : Block) (s : State) : (presentFirst cw b s).xw = s.xw := rfl
@[simp] theorem presentFirst_dout (cw : Byte) (b : Block) (s : State) : (presentFirst cw b s).dout = s.dout := rfl
@[simp] theorem presentFirst_keyBound (cw : Byte) (b : Block) (s : State) : (presentFirst cw b s).keyBound = s.keyBound := rfl
@[simp] theorem presentFirst_expanded (cw : Byte) (b : Block) (s : State) : (presentFirst cw b s).expanded = s.expanded := rfl
@[simp] theorem presentFirst_outValid (cw : Byte) (b : Block) (s : State) : (presentFirst cw b s).outValid = s.outValid := rfl
@[simp] theorem presentFirst_err (cw : Byte) (b : Block) (s : State) : (presentFirst cw b s).err = s.err := rfl
@[simp] theorem presentFirst_seq (cw : Byte) (b : Block) (s : State) : (presentFirst cw b s).seq = { s.seq with phase := .idle } := rfl
@[simp] theorem presentFirst_host (cw : Byte) (b : Block) (s : State) : (presentFirst cw b s).host = .issue cw b :: s.host := rfl
@[simp] theorem presentFirst_reads (cw : Byte) (b : Block) (s : State) : (presentFirst cw b s).reads = s.reads := rfl
@[simp] theorem presentFirst_draws (cw : Byte) (b : Block) (s : State) : (presentFirst cw b s).draws = s.draws := rfl

@[simp] theorem keyExpansionStep_mkey (s : State) : (keyExpansionStep s).mkey = s.mkey := by unfold keyExpansionStep; dsimp only; split <;> rfl
@[simp] theorem keyExpansionStep_xw (s : State) : (keyExpansionStep s).xw = s.xw := by unfold keyExpansionStep; dsimp only; split <;> rfl
@[simp] theorem keyExpansionStep_dout (s : State) : (keyExpansionStep s).dout = s.dout := by unfold keyExpansionStep; dsimp only; split <;> rfl
@[simp] theorem keyExpansionStep_keyBound (s : State) : (keyExpansionStep s).keyBound = s.keyBound := by unfold keyExpansionStep; dsimp only; split <;> rfl
@[simp] theorem keyExpansionStep_outValid (s : State) : (keyExpansionStep s).outValid = s.outValid := by unfold keyExpansionStep; dsimp only; split <;> rfl
@[simp] theorem keyExpansionStep_err (s : State) : (keyExpansionStep s).err = s.err := by unfold keyExpansionStep; dsimp only; split <;> rfl
@[simp] theorem keyExpansionStep_host (s : State) : (keyExpansionStep s).host = s.host := by unfold keyExpansionStep; dsimp only; split <;> rfl
@[simp] theorem keyExpansionStep_reads (s : State) : (keyExpansionStep s).reads = s.reads := by unfold keyExpansionStep; dsimp only; split <;> rfl
@[simp] theorem keyExpansionStep_draws (s : State) : (keyExpansionStep s).draws = s.draws := by unfold keyExpansionStep; dsimp only; split <;> rfl
@[simp] theorem keyExpansionStep_rk (s : State) : (keyExpansionStep s).rk = s.rk.set s.seq.i (roundKeyOf s.kw ck[s.seq.i]) := by unfold keyExpansionStep; dsimp only; split <;> rfl
@[simp] theorem keyExpansionStep_kw (s : State) : (keyExpansionStep s).kw = shiftIn s.kw (roundKeyOf s.kw ck[s.seq.i]) := by unfold keyExpansionStep; dsimp only; split <;> rfl
@[simp] theorem keyExpansionStep_dir (s : State) : (keyExpansionStep s).seq.dir = s.seq.dir := by unfold keyExpansionStep; dsimp only; split <;> rfl

@[simp] theorem roundStep_mkey (s : State) : (roundStep s).mkey = s.mkey := by unfold roundStep; dsimp only; split <;> rfl
@[simp] theorem roundStep_rk (s : State) : (roundStep s).rk = s.rk := by unfold roundStep; dsimp only; split <;> rfl
@[simp] theorem roundStep_keyBound (s : State) : (roundStep s).keyBound = s.keyBound := by unfold roundStep; dsimp only; split <;> rfl
@[simp] theorem roundStep_expanded (s : State) : (roundStep s).expanded = s.expanded := by unfold roundStep; dsimp only; split <;> rfl
@[simp] theorem roundStep_err (s : State) : (roundStep s).err = s.err := by unfold roundStep; dsimp only; split <;> rfl
@[simp] theorem roundStep_host (s : State) : (roundStep s).host = s.host := by unfold roundStep; dsimp only; split <;> rfl
@[simp] theorem roundStep_reads (s : State) : (roundStep s).reads = s.reads := by unfold roundStep; dsimp only; split <;> rfl
@[simp] theorem roundStep_dir (s : State) : (roundStep s).seq.dir = s.seq.dir := by unfold roundStep; dsimp only; split <;> rfl

end Sys2Proof.Machine
end

