-- ==== Sys2Proof/Laws/Step.lean ====
section
/-! SUPPORT. What one step can do, said once: the engine's own steps by phase and index, the answer of each meaning, the answer to a
presented command, and the inversion of `step`. -/

namespace Sys2Proof.Machine

/-- A key-expansion step before the last. -/
theorem keyExpansionStep_of_lt {s : State} (h : s.seq.i.val < 31) :
    keyExpansionStep s =
      { s with
        rk := s.rk.set s.seq.i (roundKeyOf s.kw ck[s.seq.i])
        kw := shiftIn s.kw (roundKeyOf s.kw ck[s.seq.i])
        seq := { s.seq with i := ⟨s.seq.i.val + 1, by omega⟩ } } := by
  simp only [keyExpansionStep, dif_pos h]

/-- The last key-expansion step. -/
theorem keyExpansionStep_of_last {s : State} (h : s.seq.i.val = 31) :
    keyExpansionStep s =
      { s with
        rk := s.rk.set s.seq.i (roundKeyOf s.kw ck[s.seq.i])
        kw := shiftIn s.kw (roundKeyOf s.kw ck[s.seq.i])
        expanded := true
        seq := { s.seq with phase := .crypt, i := 0 } } := by
  simp only [keyExpansionStep, dif_neg (show ¬ s.seq.i.val < 31 by omega)]

/-- A round step before the last. -/
theorem roundStep_of_lt {s : State} (h : s.seq.i.val < 31) :
    roundStep s =
      { s with
        xw := roundShift s.xw s.rk[roundKeyIndex s.seq.dir s.seq.i]
        seq := { s.seq with i := ⟨s.seq.i.val + 1, by omega⟩ } } := by
  simp only [roundStep, dif_pos h]

/-- The last round step. -/
theorem roundStep_of_last {s : State} (h : s.seq.i.val = 31) :
    roundStep s =
      { s with
        dout := outputBlock (roundShift s.xw s.rk[roundKeyIndex s.seq.dir s.seq.i])
        outValid := true
        seq := { s.seq with phase := .idle, i := 0 }
        kw := unwrittenKw s.draws
        xw := unwrittenXw s.draws
        draws := s.draws + 1 } := by
  simp only [roundStep, dif_neg (show ¬ s.seq.i.val < 31 by omega)]

/-- The engine's own step leaves the host's schedule, `ERR`, `MK` and `KEY_BOUND` alone. -/
theorem engineStep_frame (s : State) :
    (engineStep s).host = s.host ∧ (engineStep s).err = s.err ∧ (engineStep s).mkey = s.mkey ∧
      (engineStep s).keyBound = s.keyBound ∧ (engineStep s).reads = s.reads := by
  unfold engineStep
  split <;> simp

/-- The engine's own step does not look at the host's schedule. -/
theorem engineStep_host (s : State) (h : List HostAction) :
    engineStep { s with host := h } = { engineStep s with host := h } := by
  unfold engineStep keyExpansionStep roundStep
  dsimp only
  split
  · rfl
  · split <;> rfl
  · split <;> rfl

/-- `SETKEY` answers one of two states. -/
theorem execSetkey_eq (len : BitVec 5) (opnd : Block) (s : State) :
    execSetkey len opnd s =
      .next (if 16 < len.toNat then raiseFault .invalidLength s else bindKey (normOpnd opnd len.toNat) s) := by
  by_cases h : len.toNat ≤ 16
  · simp [execSetkey, paddedLenLegal, h, Nat.not_lt.mpr h]
  · simp [execSetkey, paddedLenLegal, h, Nat.lt_of_not_le h]

/-- `ENC` answers one of three states. -/
theorem execEnc_eq (len : BitVec 5) (opnd : Block) (s : State) :
    execEnc len opnd s =
      .next (if 16 < len.toNat then raiseFault .invalidLength s else if s.keyBound = false then raiseFault .noKey s
        else acceptBlock .e (normOpnd opnd len.toNat) s) := by
  by_cases h : len.toNat ≤ 16 <;> cases hk : s.keyBound <;>
    simp [execEnc, paddedLenLegal, h, hk]

/-- `DEC` answers one of three states. -/
theorem execDec_eq (len : BitVec 5) (opnd : Block) (s : State) :
    execDec len opnd s =
      .next (if len.toNat ≠ 16 then raiseFault .invalidLength s else if s.keyBound = false then raiseFault .noKey s
        else acceptBlock .d opnd s) := by
  by_cases h : len.toNat = 16 <;> cases hk : s.keyBound <;>
    simp [execDec, fullLenLegal, h, hk]

/-- The fault entry in the words of the claims. -/
theorem raiseFault_eq (c : ErrCode) (s : State) : raiseFault c s = { s with err := errAfter s.err c } := by
  unfold raiseFault errAfter
  split <;> rfl

/-- What a presented command does, by the fault of its word: it faults; or it is a legal `SETKEY`; or, with a key bound, a legal `ENC` or
`DEC` (30_encoding R86). -/
theorem acceptCommand_cases (cw : Byte) (opnd : Block) (s : State) :
    (∃ c, commandFault cw s.keyBound = some c ∧ acceptCommand cw opnd s = .next (raiseFault c s)) ∨
    (∃ len, commandFault cw s.keyBound = none ∧ decode cw opnd = .ok (.setkey len opnd) ∧ len.toNat ≤ 16 ∧
      acceptCommand cw opnd s = .next (bindKey (normOpnd opnd len.toNat) s)) ∨
    (∃ len, commandFault cw s.keyBound = none ∧ decode cw opnd = .ok (.enc len opnd) ∧ len.toNat ≤ 16 ∧ s.keyBound = true ∧
      acceptCommand cw opnd s = .next (acceptBlock .e (normOpnd opnd len.toNat) s)) ∨
    (∃ len, commandFault cw s.keyBound = none ∧ decode cw opnd = .ok (.dec len opnd) ∧ len.toNat = 16 ∧ s.keyBound = true ∧
      acceptCommand cw opnd s = .next (acceptBlock .d opnd s)) := by
  by_cases h1 : cwOp cw = 0b001#3
  · by_cases hl : (cwLen cw).toNat ≤ 16
    · refine Or.inr (Or.inl ⟨cwLen cw, ?_, ?_, hl, ?_⟩)
      · simp [commandFault, h1, Nat.not_lt.mpr hl]
      · simp [decode, h1]
      · simp [acceptCommand, decode, h1, exec, execSetkey_eq, Nat.not_lt.mpr hl]
    · refine Or.inl ⟨.invalidLength, ?_, ?_⟩
      · simp [commandFault, h1, Nat.lt_of_not_le hl]
      · simp [acceptCommand, decode, h1, exec, execSetkey_eq, Nat.lt_of_not_le hl]
  by_cases h2 : cwOp cw = 0b010#3
  · by_cases hl : (cwLen cw).toNat ≤ 16
    · cases hk : s.keyBound
      · refine Or.inl ⟨.noKey, ?_, ?_⟩
        · simp [commandFault, h2, Nat.not_lt.mpr hl]
        · simp [acceptCommand, decode, h2, exec, execEnc_eq, Nat.not_lt.mpr hl, hk]
      · refine Or.inr (Or.inr (Or.inl ⟨cwLen cw, ?_, ?_, hl, rfl, ?_⟩))
        · simp [commandFault, h2, Nat.not_lt.mpr hl]
        · simp [decode, h2]
        · simp [acceptCommand, decode, h2, exec, execEnc_eq, Nat.not_lt.mpr hl, hk]
    · refine Or.inl ⟨.invalidLength, ?_, ?_⟩
      · simp [commandFault, h2, Nat.lt_of_not_le hl]
      · simp [acceptCommand, decode, h2, exec, execEnc_eq, Nat.lt_of_not_le hl]
  by_cases h3 : cwOp cw = 0b011#3
  · by_cases hl : (cwLen cw).toNat = 16
    · cases hk : s.keyBound
      · refine Or.inl ⟨.noKey, ?_, ?_⟩
        · simp [commandFault, h3, hl]
        · simp [acceptCommand, decode, h3, exec, execDec_eq, hl, hk]
      · refine Or.inr (Or.inr (Or.inr ⟨cwLen cw, ?_, ?_, hl, rfl, ?_⟩))
        · simp [commandFault, h3, hl]
        · simp [decode, h3]
        · simp [acceptCommand, decode, h3, exec, execDec_eq, hl, hk]
    · refine Or.inl ⟨.invalidLength, ?_, ?_⟩
      · simp [commandFault, h3, hl]
      · simp [acceptCommand, decode, h3, exec, execDec_eq, hl]
  · have e1 : (cwOp cw).toNat ≠ 1 := fun h => h1 (BitVec.eq_of_toNat_eq (by simpa using h))
    have e2 : (cwOp cw).toNat ≠ 2 := fun h => h2 (BitVec.eq_of_toNat_eq (by simpa using h))
    have e3 : (cwOp cw).toNat ≠ 3 := fun h => h3 (BitVec.eq_of_toNat_eq (by simpa using h))
    exact Or.inl ⟨.illegalCommand, by simp [commandFault, e1, e2, e3], by simp [acceptCommand, decode, h1, h2, h3]⟩

/-- Everything one step can do. A reset; a host read; a wait that ends; a step of the engine's own, with the host's schedule as it was or
less a `pass`; or a presented command that faults, binds a key, or starts an encryption or a decryption. -/
inductive StepCase (s : State) : State → Prop where
  | reset {rest} : s.host = .reset :: rest → StepCase s (resetEngine { s with host := rest })
  | readStatus {rest} : s.host = .readStatus :: rest → StepCase s (hostReadStatus { s with host := rest })
  | readDout {rest} : s.host = .readDout :: rest → StepCase s (hostReadDout { s with host := rest })
  | ready {rest} : s.seq.phase = .idle → s.host = .awaitReady :: rest → StepCase s { s with host := rest }
  | pass {rest} : s.host = .pass :: rest → StepCase s (engineStep { s with host := rest })
  | engine : hostHolds s = true → (s.host = [] ∨ s.seq.phase ≠ .idle) → StepCase s (engineStep s)
  | fault {cw opnd rest c} : Presented s cw opnd rest → commandFault cw s.keyBound = some c →
      StepCase s (raiseFault c { s with host := rest })
  | setkey {cw opnd rest len} : Presented s cw opnd rest → commandFault cw s.keyBound = none →
      decode cw opnd = .ok (.setkey len opnd) → len.toNat ≤ 16 →
      StepCase s (bindKey (normOpnd opnd len.toNat) { s with host := rest })
  | enc {cw opnd rest len} : Presented s cw opnd rest → commandFault cw s.keyBound = none →
      decode cw opnd = .ok (.enc len opnd) → len.toNat ≤ 16 → s.keyBound = true →
      StepCase s (acceptBlock .e (normOpnd opnd len.toNat) { s with host := rest })
  | dec {cw opnd rest len} : Presented s cw opnd rest → commandFault cw s.keyBound = none →
      decode cw opnd = .ok (.dec len opnd) → len.toNat = 16 → s.keyBound = true →
      StepCase s (acceptBlock .d opnd { s with host := rest })

/-- The inversion of `step`: it always answers a next state, one of the cases. -/
theorem step_cases (s : State) : ∃ t, step s = .next t ∧ StepCase s t := by
  unfold step advance
  split
  case h_1 h => exact ⟨_, rfl, .engine (by simp [hostHolds, h]) (.inl h)⟩
  case h_2 h => exact ⟨_, rfl, .reset h⟩
  case h_3 cw opnd rest h =>
    by_cases hr : s.seq.phase = .idle
    · have hp : Presented s cw opnd rest := ⟨hr, h⟩
      rw [if_pos (by simp [State.ready, hr])]
      obtain ⟨c, hc, e⟩ | ⟨len, hc, hd, hl, e⟩ | ⟨len, hc, hd, hl, hk, e⟩ | ⟨len, hc, hd, hl, hk, e⟩ :=
        acceptCommand_cases cw opnd { s with host := rest }
      · exact ⟨_, e, .fault hp hc⟩
      · exact ⟨_, e, .setkey hp hc hd hl⟩
      · exact ⟨_, e, .enc hp hc hd hl hk⟩
      · exact ⟨_, e, .dec hp hc hd hl hk⟩
    · rw [if_neg (by simp [State.ready, hr])]
      exact ⟨_, rfl, .engine (by simp [hostHolds, h]) (.inr hr)⟩
  case h_4 h => exact ⟨_, rfl, .readStatus h⟩
  case h_5 h => exact ⟨_, rfl, .readDout h⟩
  case h_6 h => exact ⟨_, rfl, .pass h⟩
  case h_7 rest h =>
    by_cases hr : s.seq.phase = .idle
    · rw [if_pos (by simp [State.ready, hr])]
      exact ⟨_, rfl, .ready hr h⟩
    · rw [if_neg (by simp [State.ready, hr])]
      exact ⟨_, rfl, .engine (by simp [hostHolds, h]) (.inr hr)⟩

/-- The same, for a step whose answer is known. -/
theorem StepCase.of_step {s t : State} (h : step s = .next t) : StepCase s t := by
  obtain ⟨u, hu, hc⟩ := step_cases s
  rw [h] at hu
  cases hu
  exact hc

/-- A busy engine whose host makes no move takes a step of its own. -/
theorem step_of_busy {s : State} (hb : s.seq.phase ≠ .idle) (hh : hostHolds s = true) : step s = .next (engineStep s) := by
  unfold step advance
  unfold hostHolds at hh
  split <;> simp_all [State.ready]

/-- In KEXP, with no host move, a step is a key-expansion step. -/
theorem step_of_kexp {s : State} (hp : s.seq.phase = .kexp) (hh : hostHolds s = true) : step s = .next (keyExpansionStep s) := by
  rw [step_of_busy (by simp [hp]) hh]
  simp [engineStep, hp]

/-- In CRYPT, with no host move, a step is a round step. -/
theorem step_of_crypt {s : State} (hp : s.seq.phase = .crypt) (hh : hostHolds s = true) : step s = .next (roundStep s) := by
  rw [step_of_busy (by simp [hp]) hh]
  simp [engineStep, hp]

/-- A step that takes a presented command from the port is the acceptance of that command. -/
theorem step_of_presented {s : State} {cw : Byte} {opnd : Block} {rest : List HostAction} (h : Presented s cw opnd rest) :
    step s = acceptCommand cw opnd { s with host := rest } := by
  unfold step advance
  rw [h.2]
  simp [State.ready, h.1]

/-- Whether the host makes no move depends on its schedule alone. -/
theorem hostHolds_congr {s t : State} (h : t.host = s.host) : hostHolds t = hostHolds s := by
  unfold hostHolds
  rw [h]

end Sys2Proof.Machine
end

