-- ==== Sys2Proof/Tests/Slice0.lean ====
section
/-! SUPPORT. Tests, their expected values taken from the spec's vectors (95_test_vectors, "T" and "P" below) and rules; and for each
statement with hypotheses a witness that meets them. -/

namespace Sys2Proof.Tests

open Sys2Proof Sys2Proof.Machine

/-! ## Well-formedness: each ill-formed command is refused by the check (30_encoding R84) -/

theorem test_setkey_of_17_bytes_is_ill_formed : (Instr.setkey 17 0).wellFormed = false := by decide
theorem test_enc_of_17_bytes_is_ill_formed : (Instr.enc 17 0).wellFormed = false := by decide
theorem test_dec_of_15_or_17_bytes_is_ill_formed :
    (Instr.dec 15 0).wellFormed = false ∧ (Instr.dec 17 0).wellFormed = false ∧ (Instr.dec 0 0).wellFormed = false := by decide
theorem test_legal_lengths_are_well_formed :
    (Instr.setkey 0 0).wellFormed = true ∧ (Instr.setkey 16 0).wellFormed = true ∧ (Instr.enc 0 0).wellFormed = true ∧
      (Instr.enc 16 0).wellFormed = true ∧ (Instr.dec 16 0).wellFormed = true := by decide

/-! ## Decoding and encoding: words written out bit by bit from R81 and R83 (T5) -/

theorem test_decode_setkey_words :
    decode 0b001_00000#8 5 = .ok (.setkey 0 5) ∧ decode 0b001_10000#8 5 = .ok (.setkey 16 5) ∧
      decode 0b001_11111#8 5 = .ok (.setkey 31 5) := by decide
theorem test_decode_enc_words :
    decode 0b010_00000#8 5 = .ok (.enc 0 5) ∧ decode 0b010_00011#8 5 = .ok (.enc 3 5) ∧
      decode 0b010_10001#8 5 = .ok (.enc 17 5) := by decide
theorem test_decode_dec_words :
    decode 0b011_10000#8 5 = .ok (.dec 16 5) ∧ decode 0b011_00011#8 5 = .ok (.dec 3 5) := by decide
theorem test_decode_reserved_words :
    decode 0b000_10000#8 5 = .error (.reservedOp 0) ∧ decode 0b100_10000#8 5 = .error (.reservedOp 4) ∧
      decode 0b101_00000#8 5 = .error (.reservedOp 5) ∧ decode 0b110_00000#8 5 = .error (.reservedOp 6) ∧
      decode 0b111_11111#8 5 = .error (.reservedOp 7) := by decide
theorem test_encode_words :
    encode (.setkey 16 5) = (0x30, 5) ∧ encode (.enc 3 5) = (0x43, 5) ∧ encode (.dec 16 5) = (0x70, 5) := by decide
theorem test_table_words :
    decodeTableWord 8 0x20 = some (.setkey 0 0) ∧ decodeTableWord 8 0x50 = some (.enc 16 0) ∧
      decodeTableWord 8 0x70 = some (.dec 16 0) ∧ decodeTableWord 8 0x80 = none := by decide
set_option maxRecDepth 8000 in
/-- T5's counts over all 256 words: 35 legal, 61 of bad length, 160 reserved. -/
theorem test_decode_counts :
    ((List.range 256).countP fun w => ((decodeTableWord 8 w).map Instr.wellFormed) = some true) = 35 ∧
      ((List.range 256).countP fun w => ((decodeTableWord 8 w).map Instr.wellFormed) = some false) = 61 ∧
      ((List.range 256).countP fun w => (decodeTableWord 8 w).isNone) = 160 := by decide

/-! ## Primitives and operand forms (T1, T2, T3) -/

theorem test_rotl_rows :
    rotl 0x80000001 1 = 0x00000003 ∧ rotl 0x12345678 2 = 0x48d159e0 ∧ rotl 0x12345678 13 = 0x8acf0246 ∧
      rotl 0x12345678 23 = 0x3c091a2b ∧ rotl 0x12345678 0 = 0x12345678 ∧ rotl 0x12345678 32 = 0x12345678 := by decide
theorem test_subb_rows :
    subb 0x0f = 0x05 ∧ subb 0x10 = 0x2b ∧ subb 0x34 = 0xc9 ∧ subb 0xef = 0x84 ∧ subb 0xf0 = 0x18 ∧ subb 0xfe = 0x39 := by decide
theorem test_tau_and_transform_rows :
    tau 0x01020304 = 0x90e9fecc ∧ linKey 0x01020304 = 0xc3620225 ∧ linEnc 0x01020304 = 0x0517191b ∧
      mixKey 0x8283cb69 = 0x53b37958 ∧ mixEnc 0xf002c39e = 0x26d99622 := by decide
theorem test_round_function_rows :
    roundF 0x01234567 0x89abcdef 0xfedcba98 0x76543210 0xf12186f9 = 0x27fad345 ∧
      roundF 0xdeadbeef 0xaaaaaaaa 0xaaaaaaaa 0x12345678 0x12345678 = 0x85f6e5b4 := by decide
theorem test_norm_rows :
    normOpnd 0x0123456789abcdeffedcba9876543210 15 = 0x0023456789abcdeffedcba9876543210 ∧
      normOpnd 0xffffffffffffffffffffffffff616263 3 = 0x616263 ∧ normOpnd 0x0123456789abcdeffedcba9876543210 0 = 0 := by decide
theorem test_zeropad_rows :
    zeroPad [0x61, 0x62, 0x63] 128 = some [0, 0, 0, 0, 0, 0, 0, 0, 0, 0, 0, 0, 0, 0x61, 0x62, 0x63] ∧
      zeroPad (List.replicate 17 1) 128 = none ∧ zeroPad [] 128 = some (List.replicate 16 0) := by decide
/-- P2, T4.4 row 10: what the assembler drives for `ENC 616263` and for an empty key. -/
theorem test_assembler_rows :
    (AsmLine.enc [0x61, 0x62, 0x63]).assemble 0 = some (.issue 0x43 0x616263) ∧
      (AsmLine.setkey []).assemble 0 = some (.issue 0x20 0) ∧ (AsmLine.raw 0x31 [0]).assemble 0 = some (.issue 0x31 0) := by decide

/-! ## The function forms -/

/-- The key of V1. -/
def keyV1 : Block := 0x0123456789abcdeffedcba9876543210
/-- The ciphertext of V1. -/
def cipherV1 : Block := 0x681edf34d206965e86b3e94f536e4246

/-- T4.3, row 2. -/
theorem test_expand_row :
    (expand (words 1))[0] = 0x51e51b0a ∧ (expand (words 1))[3] = 0xfa0e89ff ∧ (expand (words 1))[31] = 0x43d9cfdf := by decide
/-- T4.4, row 8. -/
theorem test_encrypt_row : crypt 2 (expand (words 1)) = 0xc5c3542894f3094b8097573256582756 := by decide
set_option maxRecDepth 4000 in
/-- T4.4, row 2. -/
theorem test_decrypt_row : crypt cipherV1 (reverseKeys (expand (words keyV1))) = keyV1 := by decide

/-! ## States for the tests -/

/-- The state an outcome goes on with. -/
def nextState : Host.Outcome State Fault Refusal → Option State
  | .next s => some s
  | _ => none

/-- V1's key bound, not expanded (`STATUS` 0x01). -/
def bound : State := { State.reset with mkey := words keyV1, keyBound := true }
/-- The same, expanded, with V1's result valid (`STATUS` 0x0b). -/
def done : State := { bound with rk := expand (words keyV1), expanded := true, outValid := true, dout := cipherV1 }
/-- In the key expansion before step `i`. -/
def expanding (i : Fin 32) : State :=
  { bound with rk := expand (words keyV1), kw := windowAt (words keyV1) i, seq := { phase := .kexp, i := i, dir := .e } }
/-- In the key expansion before step 0, the store still empty. -/
def expandingFirst : State := { bound with kw := keyStart (words keyV1), seq := { phase := .kexp, i := 0, dir := .e } }
/-- In the rounds before round `i`, with a given window. -/
def inRound (dir : Dir) (i : Fin 32) (x : Quad) : State :=
  { done with outValid := false, dout := 0, xw := x, seq := { phase := .crypt, i := i, dir := dir } }
/-- The window before the last round of V1's encryption (trace 3.2). -/
def lastWindow : Quad := ⟨0x7b938f4c, 0x536e4246, 0x86b3e94f, 0xd206965e⟩
/-- A state with the host about to do something. -/
def withHost (s : State) (h : List HostAction) : State := { s with host := h }

/-! ## The commands, one step each -/

/-- P6 line 2: a 5-byte key, the operand's upper bytes ignored; `DOUT` and `OUT_VALID` stay (P5 line 4, `STATUS` 0x09). -/
theorem test_setkey_binds :
    (nextState (exec (.setkey 5 0xffffffffffffffffffffff0102030405) done)).map (fun t => (t.mkey, t.status, t.dout)) =
      some (⟨0, 0, 1, 0x02030405⟩, 0x09, cipherV1) := by decide
/-- T6 rows 5 and 6. -/
theorem test_setkey_of_17_bytes_faults :
    nextState (exec (.setkey 17 0) done) = some { done with err := .invalidLength } ∧
      (nextState (exec (.setkey 17 0) bound)).map State.status = some 0x11 := by decide
/-- P7 step 0. -/
theorem test_enc_acceptance :
    (nextState (exec (.enc 16 keyV1) bound)).map (fun t => (t.xw, t.kw, t.status, t.seq)) =
      some (⟨0x01234567, 0x89abcdef, 0xfedcba98, 0x76543210⟩, ⟨0xa292ffa1, 0xdf01febf, 0x99a12b0f, 0xc42410cc⟩, 0x05,
        { phase := .kexp, i := 0, dir := .e }) := by decide
/-- T6 rows 1 and 3: NoKey; a bad length comes before it. -/
theorem test_enc_faults :
    (nextState (exec (.enc 16 keyV1) .reset)).map State.status = some 0x20 ∧
      (nextState (exec (.enc 31 0) .reset)).map State.status = some 0x10 := by decide
/-- P2 line 4: the keys are there, so the rounds begin at once; `STATUS` 0x07. -/
theorem test_dec_acceptance :
    (nextState (exec (.dec 16 cipherV1) done)).map (fun t => (t.xw, t.status, t.seq)) =
      some (⟨0x681edf34, 0xd206965e, 0x86b3e94f, 0x536e4246⟩, 0x07, { phase := .crypt, i := 0, dir := .d }) := by decide
/-- T6 rows 2 and 7. -/
theorem test_dec_faults :
    (nextState (exec (.dec 16 0) .reset)).map State.status = some 0x20 ∧
      nextState (exec (.dec 3 0x616263) done) = some { done with err := .invalidLength } := by decide

/-! ## The sequencer, the port and the host, one step each -/

/-- P7 step 1. -/
theorem test_first_key_expansion_step :
    (nextState (step expandingFirst)).map (fun t => (t.rk[0], t.kw.w3, t.seq.i, t.status)) =
      some (0xf12186f9, 0xf12186f9, 1, 0x05) := by decide
/-- P7 step 32. -/
theorem test_last_key_expansion_step :
    (nextState (step (expanding 31))).map (fun t => (t.rk[31], t.seq.phase, t.seq.i, t.status)) =
      some (0x9124a012, .crypt, 0, 0x07) := by decide
/-- P7 step 33; trace 3.3 step 0. -/
theorem test_first_round_steps :
    (nextState (step (inRound .e 0 (words keyV1)))).map (fun t => (t.xw.w3, t.seq.i, t.status)) = some (0x27fad345, 1, 0x07) ∧
      (nextState (step (inRound .d 0 (words cipherV1)))).map (fun t => t.xw.w3) = some 0x7b938f4c := by decide
/-- P7 step 64. -/
theorem test_last_round_step :
    (nextState (step (inRound .e 31 lastWindow))).map (fun t => (t.dout, t.status, t.seq)) =
      some (cipherV1, 0x0b, { phase := .idle, i := 0, dir := .e }) := by decide
/-- T6 rows 4 and 8. -/
theorem test_reserved_command :
    (nextState (step (withHost .reset [.issue 0x9f 0]))).map (fun t => (t.status, t.host)) = some (0x30, []) ∧
      (nextState (step (withHost { bound with err := .noKey } [.issue 0x00 0]))).map State.status = some 0x21 := by decide
/-- P9: a command presented while the engine is busy is held. -/
theorem test_held_command :
    (nextState (step (withHost (expanding 10) [.issue 0x50 keyV1]))).map (fun t => (t.host, t.seq.i)) =
      some ([.issue 0x50 keyV1], 11) := by decide
/-- T7: reset from an idle state, from KEXP and from the last round. -/
theorem test_reset_rows :
    (nextState (step (withHost { done with err := .noKey } [.reset]))).map (fun t => (t.status, t.keyState)) =
        some (0x00, some .noKey) ∧
      (nextState (step (withHost (expanding 10) [.reset]))).map State.status = some 0x00 ∧
      (nextState (step (withHost (inRound .e 31 lastWindow) [.reset]))).map (fun t => (t.status, t.outValid)) =
        some (0x00, false) := by decide
theorem test_host_reads :
    (nextState (step (withHost done [.readStatus]))).map State.reads = some [.status 0x0b] ∧
      (nextState (step (withHost done [.readDout]))).map State.reads = some [.dout cipherV1] := by decide
/-- R225: a host that waits for `READY` lets the engine run, and goes on when it is idle. -/
theorem test_host_waits :
    (nextState (step (withHost (expanding 4) [.awaitReady]))).map (fun t => (t.host, t.seq.i)) = some ([.awaitReady], 5) ∧
      (nextState (step (withHost done [.awaitReady]))).map State.host = some [] := by decide
theorem test_fetch_word :
    step (State.reset.withFetchWord 8 0x20) = exec (.setkey 0 0) .reset ∧
      step (State.reset.withFetchWord 8 0x40) = exec (.enc 0 0) .reset ∧
      step (State.reset.withFetchWord 8 0x60) = exec (.dec 0 0) .reset := ⟨rfl, rfl, rfl⟩

/-! ## Witnesses: for each statement with hypotheses, concrete inputs that meet all of them, per clause at the ends of its range -/

theorem test_witness_EncodeOfDecode : decode 0x43 7 = .ok (.enc 3 7) ∧ encode (.enc 3 7) = (0x43, 7) := by decide
theorem test_witness_DecodeClassifiesEveryWord :
    (0x20 ≤ (0x20 : Byte).toNat ∧ (0x3F : Byte).toNat ≤ 0x3F ∧ 0x30 ≤ (0x30 : Byte).toNat ∧ 0x30 < (0x31 : Byte).toNat) ∧
      (0x40 ≤ (0x40 : Byte).toNat ∧ (0x5F : Byte).toNat ≤ 0x5F ∧ (0x50 : Byte).toNat ≤ 0x50 ∧ 0x50 < (0x51 : Byte).toNat) ∧
      (0x60 ≤ (0x60 : Byte).toNat ∧ (0x7F : Byte).toNat ≤ 0x7F ∧ (0x70 : Byte).toNat = 0x70) ∧
      (0x1F : Byte).toNat ≤ 0x1F ∧ 0x80 ≤ (0x80 : Byte).toNat ∧ 0x80 ≤ (0xFF : Byte).toNat := by decide
theorem test_witness_OperandBytesRightAligned :
    (List.replicate 16 (0x61 : Byte)).length ≤ 16 ∧ 15 < (List.replicate 16 (0x61 : Byte)).length ∧
      0 < ([0x61] : List Byte).length := by decide
theorem test_witness_AssembledLinesDecode :
    ([] : List Byte).length ≤ 16 ∧ (List.replicate 16 (0x61 : Byte)).length = 16 := by decide
theorem test_witness_TauActsOnByteLanes : (3 < 4) ∧ (tau 0x01020304).extractLsb' (8 * 3) 8 = subb 0x01 := by decide
theorem test_witness_RotlMovesEveryBit :
    (0 ≤ 32 ∧ 31 < 32 ∧ 32 ≤ 32 ∧ 32 < 33) ∧ rotlChecked 1 32 = some 1 ∧ rotlChecked 1 33 = none := by decide
theorem test_witness_NormIsZeroPad : (0 ≤ 16 ∧ 16 ≤ 16) ∧ ([] : List Byte).length ≤ 16 ∧ (List.replicate 16 (1 : Byte)).length ≤ 16 := by
  decide
theorem test_witness_ZeroPadDomain :
    127 % 8 ≠ 0 ∧ (8 % 8 = 0 ∧ (List.replicate 16 (1 : Byte)).length = 16) ∧
      (128 % 8 = 0 ∧ (List.replicate 17 (1 : Byte)).length ≠ 16 ∧ 128 / 8 < (List.replicate 17 (1 : Byte)).length) ∧
      (128 % 8 = 0 ∧ (List.replicate 15 (1 : Byte)).length ≠ 16 ∧ (List.replicate 15 (1 : Byte)).length ≤ 128 / 8) ∧
      (136 % 8 = 0 ∧ (List.replicate 17 (1 : Byte)).length ≠ 16 ∧ (List.replicate 17 (1 : Byte)).length ≤ 136 / 8) := by decide
theorem test_witness_SetkeyBindsTheKey : (0 : BitVec 5).toNat ≤ 16 ∧ (16 : BitVec 5).toNat ≤ 16 := by decide
theorem test_witness_KeyExpansionStep :
    ((expanding 0).seq.phase = .kexp ∧ hostHolds (expanding 0) = true ∧ (expanding 0).seq.i.val < 31) ∧
      ((expanding 30).seq.phase = .kexp ∧ hostHolds (expanding 30) = true ∧ (expanding 30).seq.i.val < 31) ∧
      ((expanding 31).seq.phase = .kexp ∧ hostHolds (expanding 31) = true ∧ (expanding 31).seq.i.val = 31) ∧
      (30 : Fin 32) ≠ (expanding 31).seq.i := by decide
theorem test_witness_ExpansionStepsEqualExpand :
    expandingFirst.seq.phase = .kexp ∧ expandingFirst.seq.i = 0 ∧ expandingFirst.kw = keyStart expandingFirst.mkey := by decide
theorem test_witness_CryptFollowsRecurrence : (0 : Fin 32).val = 31 - (31 : Fin 32).val ∧ (31 : Fin 32).val = 31 - (0 : Fin 32).val := by
  decide
theorem test_witness_EncAndDecAcceptance :
    (bound.keyBound = true ∧ bound.expanded = false ∧ done.keyBound = true ∧ done.expanded = true) ∧
      (∃ len opnd, Instr.enc 0 7 = .enc len opnd ∧ len.toNat ≤ 16 ∧ Dir.e = .e ∧ (0 : Block) = normOpnd opnd len.toNat) ∧
      (∃ len opnd, Instr.enc 16 7 = .enc len opnd ∧ len.toNat ≤ 16 ∧ Dir.e = .e ∧ (7 : Block) = normOpnd opnd len.toNat) ∧
      (∃ len, Instr.dec 16 7 = .dec len 7 ∧ len.toNat = 16 ∧ Dir.d = .d) :=
  ⟨by decide, ⟨0, 7, rfl, by decide⟩, ⟨16, 7, rfl, by decide⟩, 16, rfl, by decide⟩
theorem test_witness_RoundStep :
    ((inRound .e 0 lastWindow).seq.phase = .crypt ∧ hostHolds (inRound .e 0 lastWindow) = true) ∧
      ((inRound .e 30 lastWindow).seq.i.val < 31 ∧ (inRound .e 30 lastWindow).seq.dir = .e) ∧
      ((inRound .d 31 lastWindow).seq.phase = .crypt ∧ hostHolds (inRound .d 31 lastWindow) = true ∧
        (inRound .d 31 lastWindow).seq.i.val = 31 ∧ (inRound .d 31 lastWindow).seq.dir = .d) := by decide
theorem bound_coherent : Coherent bound := fun h => absurd h (by decide)
theorem done_coherent : Coherent done := fun _ _ => rfl
theorem test_witness_EncEndsWithCiphertext :
    ((0 : BitVec 5).toNat ≤ 16 ∧ (16 : BitVec 5).toNat ≤ 16) ∧
      (bound.keyBound = true ∧ bound.seq.phase = .idle ∧ Coherent bound ∧ hostHolds bound = true) ∧
      (done.keyBound = true ∧ done.seq.phase = .idle ∧ Coherent done ∧ hostHolds done = true) :=
  ⟨by decide, ⟨rfl, rfl, bound_coherent, rfl⟩, rfl, rfl, done_coherent, rfl⟩
theorem test_witness_DecEndsWithPlaintext :
    (16 : BitVec 5).toNat = 16 ∧ bound.keyBound = true ∧ bound.seq.phase = .idle ∧ Coherent bound ∧ hostHolds bound = true :=
  ⟨rfl, rfl, rfl, bound_coherent, rfl⟩
theorem test_witness_EngineRoundTrip :
    (done.keyBound = true ∧ done.seq.phase = .idle ∧ Coherent done ∧ hostHolds done = true) ∧ (0 : BitVec 5).toNat ≤ 16 :=
  ⟨⟨rfl, rfl, done_coherent, rfl⟩, by decide⟩
theorem test_witness_OutputDependsOnKeyAndBlockOnly :
    (bound.mkey = done.mkey ∧ bound.keyBound = true ∧ done.keyBound = true ∧ bound.seq.phase = .idle ∧ done.seq.phase = .idle ∧
      Coherent bound ∧ Coherent done ∧ hostHolds bound = true ∧ hostHolds done = true) ∧
      normOpnd 0xff616263 (3 : BitVec 5).toNat = normOpnd 0x616263 (16 : BitVec 5).toNat ∧ (16 : BitVec 5).toNat = 16 :=
  ⟨⟨rfl, rfl, rfl, rfl, rfl, bound_coherent, done_coherent, rfl, rfl⟩, by decide⟩
theorem test_witness_OutputWrittenInOneStep :
    (inRound .e 31 lastWindow).seq.phase = .crypt ∧ (inRound .e 31 lastWindow).seq.i.val = 31 ∧
      hostHolds (inRound .e 31 lastWindow) = true := by decide
theorem test_witness_BadLengthFaults :
    16 < (17 : BitVec 5).toNat ∧ 16 < (31 : BitVec 5).toNat ∧ (15 : BitVec 5).toNat ≠ 16 ∧ (17 : BitVec 5).toNat ≠ 16 ∧
      (0 : BitVec 5).toNat ≠ 16 := by decide
theorem test_witness_NoKeyFaults :
    State.reset.keyBound = false ∧ (0 : BitVec 5).toNat ≤ 16 ∧ (16 : BitVec 5).toNat ≤ 16 ∧ (16 : BitVec 5).toNat = 16 := by decide
theorem test_witness_ReservedOpFaults :
    Presented (withHost done [.issue 0x1f 7]) 0x1f 7 [] ∧ cwOp 0x1f = 0 ∧ cwOp 0x80 = 4 ∧ cwOp 0xa0 = 5 ∧ cwOp 0xc0 = 6 ∧
      cwOp 0xff = 7 := ⟨⟨rfl, rfl⟩, by decide⟩
theorem test_witness_FaultsArePreciseAndPrioritised :
    Presented (withHost .reset [.issue 0x9f 7, .readStatus]) 0x9f 7 [.readStatus] ∧
      commandFault 0x9f false = some .illegalCommand ∧ commandFault 0x5f false = some .invalidLength ∧
      commandFault 0x31 true = some .invalidLength ∧ commandFault 0x6f false = some .invalidLength ∧
      commandFault 0x50 false = some .noKey ∧ commandFault 0x70 false = some .noKey ∧
      commandFault 0x30 false = none ∧ commandFault 0x40 true = none ∧ commandFault 0x70 true = none := ⟨⟨rfl, rfl⟩, by decide⟩
theorem test_witness_ErrIsStickyUntilReset :
    (∃ t, step (withHost { bound with err := .noKey } [.issue 0x00 0]) = .next t ∧ t.err = .noKey ∧
      ¬ Resets (withHost { bound with err := .noKey } [.issue 0x00 0])) ∧
      (∃ t, step (withHost { bound with err := .noKey } [.reset]) = .next t ∧
        Resets (withHost { bound with err := .noKey } [.reset]) ∧ t.err = .none) ∧
      (∃ t, step (withHost bound [.issue 0x31 0]) = .next t ∧ bound.err = .none ∧ t.err = .invalidLength ∧
        Faults (withHost bound [.issue 0x31 0]) .invalidLength) :=
  ⟨⟨_, rfl, by decide, fun ⟨_, h⟩ => by simp [withHost] at h⟩, ⟨_, rfl, ⟨_, rfl⟩, rfl⟩,
    _, rfl, rfl, by decide, _, _, _, ⟨rfl, rfl⟩, by decide⟩

/-- An accepted command on a concrete state. -/
theorem accepts_of (s : State) (cw : Byte) (opnd : Block) (i : Instr) (hs : s.seq.phase = .idle)
    (hf : commandFault cw s.keyBound = none) (hd : decode cw opnd = .ok i) : Accepts (withHost s [.issue cw opnd]) i :=
  ⟨cw, opnd, [], ⟨hs, rfl⟩, hf, hd⟩

/-- The invariant does not look at the host's schedule. -/
theorem inv_withHost {s : State} (h : EngineInv s) (l : List HostAction) : EngineInv (withHost s l) :=
  ⟨h.expanded_bound, h.busy_bound, h.idle_index, h.kexp_window, h.crypt_expanded, h.coherent⟩
theorem test_witness_inv_done : EngineInv done :=
  ⟨fun _ => rfl, fun h => absurd rfl h, fun _ => rfl, fun h => absurd h (by decide), fun h => absurd h (by decide), done_coherent⟩
theorem test_witness_inv_bound : EngineInv bound :=
  ⟨fun _ => rfl, fun h => absurd rfl h, fun _ => rfl, fun h => absurd h (by decide), fun h => absurd h (by decide), bound_coherent⟩
theorem test_witness_inv_expanding (i : Fin 32) : EngineInv (expanding i) :=
  ⟨fun _ => rfl, fun _ => ⟨rfl, rfl⟩, fun h => by simp [expanding] at h, fun _ => ⟨rfl, rfl, fun _ _ => rfl⟩,
    fun h => by simp [expanding] at h, fun h => absurd h (by simp [expanding, bound, State.reset])⟩
theorem test_witness_inv_inRound (dir : Dir) (i : Fin 32) (x : Quad) : EngineInv (inRound dir i x) :=
  ⟨fun _ => rfl, fun _ => ⟨rfl, rfl⟩, fun h => by simp [inRound] at h, fun h => by simp [inRound] at h, fun _ => rfl,
    fun _ _ => rfl⟩
theorem test_witness_KeyStateTransitions :
    (EngineInv (expanding 31) ∧ (expanding 31).seq.phase = .kexp ∧ (expanding 31).seq.i.val = 31 ∧
      hostHolds (expanding 31) = true ∧ (expanding 31).keyState = some .unexpanded) ∧
      (EngineInv (withHost done [.issue 0x30 7]) ∧ Accepts (withHost done [.issue 0x30 7]) (.setkey 16 7)) ∧
      (EngineInv (withHost bound [.issue 0x43 7]) ∧ Accepts (withHost bound [.issue 0x43 7]) (.enc 3 7)) ∧
      (EngineInv (withHost bound [.issue 0x70 7]) ∧ Accepts (withHost bound [.issue 0x70 7]) (.dec 16 7)) ∧
      (EngineInv (withHost done [.issue 0x31 7]) ∧ Faults (withHost done [.issue 0x31 7]) .invalidLength) ∧
      (EngineInv (withHost done [.reset]) ∧ Resets (withHost done [.reset])) ∧
      State.reset.keyState = some .noKey ∧ bound.keyState = some .unexpanded ∧ done.keyState = some .expanded :=
  ⟨⟨test_witness_inv_expanding 31, by decide⟩,
    ⟨inv_withHost test_witness_inv_done _, accepts_of _ _ _ _ rfl (by decide) (by decide)⟩,
    ⟨inv_withHost test_witness_inv_bound _, accepts_of _ _ _ _ rfl (by decide) (by decide)⟩,
    ⟨inv_withHost test_witness_inv_bound _, accepts_of _ _ _ _ rfl (by decide) (by decide)⟩,
    ⟨inv_withHost test_witness_inv_done _, _, _, _, ⟨rfl, rfl⟩, by decide⟩,
    ⟨inv_withHost test_witness_inv_done _, _, rfl⟩, by decide⟩
theorem test_witness_FlagsChangeOnlyAsListed :
    (∃ t, step (withHost .reset [.issue 0x30 7]) = .next t ∧ State.reset.keyBound = false ∧ t.keyBound = true) ∧
      (∃ t, step (withHost done [.reset]) = .next t ∧ done.keyBound = true ∧ t.keyBound = false ∧ done.expanded = true ∧
        t.expanded = false ∧ done.outValid = true ∧ t.outValid = false) ∧
      (∃ t, step (expanding 31) = .next t ∧ (expanding 31).expanded = false ∧ t.expanded = true) ∧
      (∃ t, step (withHost done [.issue 0x30 7]) = .next t ∧ done.expanded = true ∧ t.expanded = false) ∧
      (∃ t, step (inRound .d 31 lastWindow) = .next t ∧ (inRound .d 31 lastWindow).outValid = false ∧ t.outValid = true) ∧
      (∃ t, step (withHost done [.issue 0x43 7]) = .next t ∧ done.outValid = true ∧ t.outValid = false) ∧
      (∃ t, step (withHost done [.issue 0x70 7]) = .next t ∧ done.outValid = true ∧ t.outValid = false) :=
  ⟨⟨_, rfl, by decide⟩, ⟨_, rfl, by decide⟩, ⟨_, rfl, by decide⟩, ⟨_, rfl, by decide⟩, ⟨_, rfl, by decide⟩,
    ⟨_, rfl, by decide⟩, _, rfl, by decide⟩
theorem test_witness_SequencerWalk :
    (∃ t, step (withHost done [.issue 0x30 7]) = .next t ∧ Accepts (withHost done [.issue 0x30 7]) (.setkey 16 7)) ∧
      (∃ t, step (withHost done [.issue 0x63 7]) = .next t ∧ Faults (withHost done [.issue 0x63 7]) .invalidLength) ∧
      (∃ t, step (withHost bound [.issue 0x40 7]) = .next t ∧ Accepts (withHost bound [.issue 0x40 7]) (.enc 0 7)) ∧
      (∃ t, step (withHost done [.issue 0x70 7]) = .next t ∧ Accepts (withHost done [.issue 0x70 7]) (.dec 16 7)) ∧
      (hostHolds (expanding 30) = true ∧ (expanding 30).seq.i.val < 31 ∧ hostHolds (expanding 31) = true ∧
        (expanding 31).seq.i.val = 31 ∧ (expanding 31).seq.phase = .kexp) ∧
      (hostHolds (inRound .e 30 lastWindow) = true ∧ (inRound .e 30 lastWindow).seq.i.val < 31 ∧
        (inRound .e 31 lastWindow).seq.i.val = 31 ∧ (inRound .e 31 lastWindow).seq.phase = .crypt) ∧
      Resets (withHost (expanding 10) [.reset]) :=
  ⟨⟨_, rfl, accepts_of _ _ _ _ rfl (by decide) (by decide)⟩, ⟨_, rfl, _, _, _, ⟨rfl, rfl⟩, by decide⟩,
    ⟨_, rfl, accepts_of _ _ _ _ rfl (by decide) (by decide)⟩, ⟨_, rfl, accepts_of _ _ _ _ rfl (by decide) (by decide)⟩,
    by decide, by decide, _, rfl⟩
theorem test_witness_KeyChangesOnlyBySetkeyOrReset :
    ∃ t, step (withHost bound [.issue 0x30 7]) = .next t ∧ t.mkey ≠ bound.mkey := ⟨_, rfl, by decide⟩
theorem test_witness_RoundKeysWrittenOnlyByExpansion :
    ∃ t, step expandingFirst = .next t ∧ t.rk ≠ expandingFirst.rk :=
  ⟨_, rfl, fun h => absurd (congrArg (fun v : Vector Word 32 => v[0]) h) (by decide)⟩
/-- A valid output that the reset signal changes, whatever the unspecified values are. -/
def otherOutput : State := withHost { done with dout := ~~~ unwrittenDout 0 } [.reset]
theorem test_witness_OutputChangesOnlyInLastRound :
    (∃ t, step (inRound .e 31 lastWindow) = .next t ∧ t.dout ≠ (inRound .e 31 lastWindow).dout) ∧
      (∃ t, step otherOutput = .next t ∧ t.dout ≠ otherOutput.dout ∧ EngineInv otherOutput ∧ otherOutput.outValid = true) :=
  ⟨⟨_, rfl, by decide⟩, _, rfl, fun h => by
    have low := congrArg (fun v : Block => v.getLsbD 0) h
    simp [otherOutput, withHost, resetEngine, done, bound, State.reset] at low,
    inv_withHost ⟨fun _ => rfl, fun h => absurd rfl h, fun _ => rfl, fun h => by simp [done, bound, State.reset] at h,
      fun h => by simp [done, bound, State.reset] at h, fun _ _ => rfl⟩ _, rfl⟩
theorem test_witness_StatusReadAtAnyTime :
    (withHost (expanding 10) [.readStatus, .pass]).host = .readStatus :: [.pass] ∧ (withHost done [.readStatus]).host = [.readStatus] :=
  ⟨rfl, rfl⟩
theorem test_witness_ResetSignalFromAnyState :
    (withHost (inRound .e 31 lastWindow) [.reset, .readStatus]).host = .reset :: [.readStatus] := rfl
theorem test_witness_StepKeepsInvariant :
    (EngineInv (expanding 31) ∧ ∃ t, step (expanding 31) = .next t) ∧
      (EngineInv (inRound .d 31 lastWindow) ∧ ∃ t, step (inRound .d 31 lastWindow) = .next t) ∧
      (EngineInv (withHost bound [.issue 0x70 7]) ∧ ∃ t, step (withHost bound [.issue 0x70 7]) = .next t) :=
  ⟨⟨test_witness_inv_expanding 31, _, rfl⟩, ⟨test_witness_inv_inRound .d 31 lastWindow, _, rfl⟩,
    inv_withHost test_witness_inv_bound _, _, rfl⟩
theorem test_witness_BusyEngineHoldsCommands :
    (withHost (expanding 31) [.issue 0x00 7]).seq.phase ≠ .idle ∧
      (withHost (expanding 31) [.issue 0x00 7]).host = .issue 0x00 7 :: [] ∧
      hostHolds (withHost (expanding 31) []) = true ∧ hostHolds (withHost (expanding 31) [.awaitReady]) = true := by decide
theorem test_witness_StepRunsDecodedCommand :
    Presented (withHost done [.issue 0x43 7]) 0x43 7 [] ∧ decode 0x43 7 = .ok (.enc 3 7) := ⟨⟨rfl, rfl⟩, by decide⟩
theorem test_witness_EveryCommandCompletes :
    hostHolds (withHost (expanding 0) [.issue 0x50 7]) = true ∧ (withHost (expanding 0) [.issue 0x50 7]).seq.phase ≠ .idle := by
  decide
theorem test_witness_DoutReadAtAnyTime :
    ((withHost done [.readDout]).host = .readDout :: [] ∧ (withHost done [.readDout]).outValid = true) ∧
      (withHost (expanding 3) [.readDout]).host = .readDout :: [] ∧ (withHost (expanding 3) [.readDout]).outValid = false := by decide
theorem test_witness_IdleEngineWaits : done.seq.phase = .idle ∧ done.host = [] := by decide
theorem test_witness_ControlIsDataIndependent :
    SameControl (withHost done [.issue 0x43 7]) (withHost { done with mkey := words 1, dout := 0 } [.issue 0x43 8]) ∧
      (∃ t, step (withHost done [.issue 0x43 7]) = .next t) ∧
      ∃ t, step (withHost { done with mkey := words 1, dout := 0 } [.issue 0x43 8]) = .next t :=
  ⟨⟨rfl, rfl, rfl, rfl, rfl, .cons rfl .nil⟩, ⟨_, rfl⟩, _, rfl⟩

end Sys2Proof.Tests
end

/-! SUPPORT. What the engine can do in one step, in the terms of the claims about its state, and what each event leaves. -/

namespace Sys2Proof.Machine

/-! ### The fields that the last key-expansion step and the last round step write -/

@[simp] theorem keyExpansionStep_expanded (s : State) :
    (keyExpansionStep s).expanded = if s.seq.i.val < 31 then s.expanded else true := by
  unfold keyExpansionStep; dsimp only; split <;> rfl

@[simp] theorem roundStep_dout (s : State) :
    (roundStep s).dout =
      if s.seq.i.val < 31 then s.dout else outputBlock (roundShift s.xw s.rk[roundKeyIndex s.seq.dir s.seq.i]) := by
  unfold roundStep; dsimp only; split <;> rfl

@[simp] theorem roundStep_outValid (s : State) :
    (roundStep s).outValid = if s.seq.i.val < 31 then s.outValid else true := by
  unfold roundStep; dsimp only; split <;> rfl

/-- The sequencer's index is at most 31 by its type. -/
theorem Sequencer.eq_last_of_not_lt {q : Sequencer} (h : ¬ q.i.val < 31) : q.i.val = 31 := by
  have := q.i.isLt
  omega

/-! ### What each event leaves -/

/-- A reset signal is taken at once (R210). -/
theorem Resets.next_eq {s t : State} (hr : Resets s) (h : step s = .next t) :
    ∃ rest, t = resetEngine { s with host := rest } := by
  obtain ⟨rest, hhost⟩ := hr
  simp only [step, advance, hhost] at h
  exact ⟨rest, (Host.Outcome.next.inj h).symm⟩

/-- A faulting command is taken from the port and enters the fault (R186). -/
theorem Faults.next_eq {s t : State} {c : ErrCode} (hc : Faults s c) (h : step s = .next t) :
    ∃ rest, t = raiseFault c { s with host := rest } := by
  obtain ⟨cw, opnd, rest, hp, hf⟩ := hc
  rw [step_of_presented hp] at h
  refine ⟨rest, Host.Outcome.next.inj (h.symm.trans ?_)⟩
  obtain ⟨d, hd, e⟩ | ⟨_, hn, -⟩ | ⟨_, hn, -⟩ | ⟨_, hn, -⟩ := acceptCommand_cases cw opnd { s with host := rest }
  · obtain rfl : c = d := Option.some.inj (hf.symm.trans hd)
    exact e
  all_goals exact absurd (hf.symm.trans hn) nofun

/-- The state that a command leaves when it is accepted without a fault (R130, R154). -/
def accepted : Instr → State → State
  | .setkey len opnd, s => bindKey (normOpnd opnd len.toNat) s
  | .enc len opnd, s => acceptBlock .e (normOpnd opnd len.toNat) s
  | .dec _ opnd, s => acceptBlock .d opnd s

/-- An accepted command is taken from the port and executed (R31, R187). -/
theorem Accepts.next_eq {s t : State} {i : Instr} (ha : Accepts s i) (h : step s = .next t) :
    ∃ rest, t = accepted i { s with host := rest } := by
  obtain ⟨cw, opnd, rest, hp, hf, hd⟩ := ha
  rw [step_of_presented hp] at h
  refine ⟨rest, Host.Outcome.next.inj (h.symm.trans ?_)⟩
  obtain ⟨c, hc, -⟩ | ⟨_, -, hi, -, e⟩ | ⟨_, -, hi, -, -, e⟩ | ⟨_, -, hi, -, -, e⟩ :=
    acceptCommand_cases cw opnd { s with host := rest }
  · exact absurd (hf.symm.trans hc) nofun
  all_goals
    cases hd.symm.trans hi
    exact e

/-- A command is accepted only in IDLE (R31). -/
theorem Accepts.idle {s : State} {i : Instr} (h : Accepts s i) : s.seq.phase = .idle := by
  obtain ⟨_, _, _, ⟨hidle, -⟩, -⟩ := h
  exact hidle

/-! ### The inversion of a step by its event -/

/-- Two states with the same registers, flags, `ERR` and sequencer: they differ at most in the model's own fields. -/
structure SameEngine (s t : State) : Prop where
  mkey : t.mkey = s.mkey
  rk : t.rk = s.rk
  kw : t.kw = s.kw
  xw : t.xw = s.xw
  dout : t.dout = s.dout
  keyBound : t.keyBound = s.keyBound
  expanded : t.expanded = s.expanded
  outValid : t.outValid = s.outValid
  err : t.err = s.err
  seq : t.seq = s.seq

/-- A step from `s` by the event that causes it, in the terms of the claims (R29): reset, a fault, an accepted command, a key-expansion
step, a round step, or a step that leaves the engine as it is. -/
inductive StepEvent (s : State) : State → Prop where
  | reset {rest} : Resets s → StepEvent s (resetEngine { s with host := rest })
  | fault {c rest} : Faults s c → StepEvent s (raiseFault c { s with host := rest })
  | setkey {len opnd rest} : Accepts s (.setkey len opnd) →
      StepEvent s (bindKey (normOpnd opnd len.toNat) { s with host := rest })
  | enc {len opnd rest} : Accepts s (.enc len opnd) → s.keyBound = true →
      StepEvent s (acceptBlock .e (normOpnd opnd len.toNat) { s with host := rest })
  | dec {len opnd rest} : Accepts s (.dec len opnd) → s.keyBound = true →
      StepEvent s (acceptBlock .d opnd { s with host := rest })
  | expand {rest} : s.seq.phase = .kexp → StepEvent s { keyExpansionStep s with host := rest }
  | round {rest} : s.seq.phase = .crypt → StepEvent s { roundStep s with host := rest }
  | keep {t} : SameEngine s t → StepEvent s t

/-- The engine's own step, whatever it leaves of the host's schedule, is one of three events. -/
theorem StepEvent.of_engineStep (s : State) (rest : List HostAction) :
    StepEvent s { engineStep s with host := rest } := by
  unfold engineStep
  split
  · exact .keep ⟨rfl, rfl, rfl, rfl, rfl, rfl, rfl, rfl, rfl, rfl⟩
  case h_2 hp => exact .expand hp
  case h_3 hp => exact .round hp

/-- The inversion of `step` by events. -/
theorem StepEvent.of_step {s t : State} (h : step s = .next t) : StepEvent s t := by
  cases StepCase.of_step h with
  | reset hh => exact .reset ⟨_, hh⟩
  | readStatus | readDout | ready => exact .keep ⟨rfl, rfl, rfl, rfl, rfl, rfl, rfl, rfl, rfl, rfl⟩
  | pass => rw [engineStep_host]; exact .of_engineStep s _
  | engine => exact .of_engineStep s (engineStep s).host
  | fault hp hf => exact .fault ⟨_, _, _, hp, hf⟩
  | setkey hp hf hd => exact .setkey ⟨_, _, _, hp, hf, hd⟩
  | enc hp hf hd _ hk => exact .enc ⟨_, _, _, hp, hf, hd⟩ hk
  | dec hp hf hd _ hk => exact .dec ⟨_, _, _, hp, hf, hd⟩ hk

/-! ### The invariant, event by event -/

/-- The invariant looks only at `MK`, `RK`, `KW`, the flags and the sequencer. -/
theorem EngineInv.congr {s t : State} (hs : EngineInv s) (hmkey : t.mkey = s.mkey) (hrk : t.rk = s.rk) (hkw : t.kw = s.kw)
    (hkeyBound : t.keyBound = s.keyBound) (hexpanded : t.expanded = s.expanded) (houtValid : t.outValid = s.outValid)
    (hseq : t.seq = s.seq) : EngineInv t := by
  obtain ⟨hbound, hbusy, hindex, hwindow, hcrypt, hcoherent⟩ := hs
  unfold Coherent at hcoherent
  constructor <;> simpa only [Coherent, hmkey, hrk, hkw, hkeyBound, hexpanded, houtValid, hseq]

/-- The invariant does not look at the host's schedule. -/
theorem EngineInv.withSchedule {s : State} (hs : EngineInv s) (rest : List HostAction) : EngineInv { s with host := rest } :=
  hs.congr rfl rfl rfl rfl rfl rfl rfl

/-- Reset gives NoKey in IDLE, where the invariant asks nothing of `RK` and `KW` (R210). -/
theorem engineInv_resetEngine (s : State) : EngineInv (resetEngine s) where
  expanded_bound := nofun
  busy_bound := fun h => absurd rfl h
  idle_index := fun _ => rfl
  kexp_window := nofun
  crypt_expanded := nofun
  coherent := nofun

/-- Binding a key clears `EXPANDED`, so nothing is asked of `RK` (R130, R66). -/
theorem EngineInv.bindKey {s : State} (hs : EngineInv s) (hidle : s.seq.phase = .idle) (p : Block) :
    EngineInv (bindKey p s) where
  expanded_bound := nofun
  busy_bound := fun h => absurd hidle h
  idle_index := hs.idle_index
  kexp_window := fun h => by simp [hidle] at h
  crypt_expanded := fun h => by simp [hidle] at h
  coherent := nofun

/-- Acceptance of a block enters the rounds with the round keys in place, or the expansion with its first window (R154, R132). -/
theorem EngineInv.acceptBlock {s : State} (hs : EngineInv s) (hidle : s.seq.phase = .idle) (hk : s.keyBound = true)
    (dir : Dir) (b : Block) : EngineInv (acceptBlock dir b s) where
  expanded_bound := fun _ => hk
  busy_bound := fun _ => ⟨hk, rfl⟩
  idle_index := fun _ => rfl
  kexp_window := fun h => by
    have he : s.expanded = false := by
      cases he : s.expanded
      · rfl
      · simp [he] at h
    simp [he]
  crypt_expanded := fun h => by
    cases he : s.expanded
    · simp [he] at h
    · exact he
  coherent := fun he _ => hs.coherent he (by simp [hidle])

/-- After key-expansion step `i` the round keys up to and including `RK[i]` are in place (R133, R30). -/
theorem EngineInv.keyExpansionStep_rk_getElem {s : State} (hs : EngineInv s) (hp : s.seq.phase = .kexp) (j : Fin 32)
    (hj : j ≤ s.seq.i) : (keyExpansionStep s).rk[j] = (expand s.mkey)[j] := by
  obtain ⟨-, hkw, hrk⟩ := hs.kexp_window hp
  obtain hlt | rfl := lt_or_eq_of_le hj
  · have hne : s.seq.i.val ≠ j.val := by omega
    simpa [Vector.getElem_set_ne, hne] using hrk j hlt
  · simp [hkw, expand_getElem]

/-- After key-expansion step `i` the window is the one before step `i + 1` (R133). -/
theorem EngineInv.keyExpansionStep_window {s : State} (hs : EngineInv s) (hp : s.seq.phase = .kexp) :
    (keyExpansionStep s).kw = windowAt s.mkey (s.seq.i.val + 1) := by
  obtain ⟨-, hkw, -⟩ := hs.kexp_window hp
  simp [windowAt_succ s.mkey s.seq.i.val s.seq.i.isLt, hkw]

/-- A key-expansion step extends the round keys in place by one, and the last one makes `RK` the expansion of `MK` (R30, R135). -/
theorem EngineInv.keyExpansionStep {s : State} (hs : EngineInv s) (hp : s.seq.phase = .kexp) :
    EngineInv (keyExpansionStep s) := by
  obtain ⟨hk, hov⟩ := hs.busy_bound (by simp [hp])
  obtain ⟨he, -, -⟩ := hs.kexp_window hp
  have hrk := hs.keyExpansionStep_rk_getElem hp
  have hkw := hs.keyExpansionStep_window hp
  by_cases hi : s.seq.i.val < 31
  · rw [keyExpansionStep_of_lt hi] at hrk hkw ⊢
    exact
      { expanded_bound := fun _ => hk
        busy_bound := fun _ => ⟨hk, hov⟩
        idle_index := fun h => by simp [hp] at h
        kexp_window := fun _ => ⟨he, hkw, fun j hj => hrk j (Nat.le_of_lt_succ hj)⟩
        crypt_expanded := fun h => by simp [hp] at h
        coherent := fun _ h => absurd hp h }
  · have hlast := Sequencer.eq_last_of_not_lt hi
    rw [keyExpansionStep_of_last hlast] at hrk ⊢
    exact
      { expanded_bound := fun _ => hk
        busy_bound := fun _ => ⟨hk, hov⟩
        idle_index := nofun
        kexp_window := nofun
        crypt_expanded := fun _ => rfl
        coherent := fun _ _ => Vector.ext fun j hj => hrk ⟨j, hj⟩ (Fin.le_def.mpr (by simp only; omega)) }

/-- A round step keeps the key side as it is; the last one returns to IDLE with index 0 (R155, R158). -/
theorem EngineInv.roundStep {s : State} (hs : EngineInv s) (hp : s.seq.phase = .crypt) : EngineInv (roundStep s) := by
  obtain ⟨hk, hov⟩ := hs.busy_bound (by simp [hp])
  have he := hs.crypt_expanded hp
  have hrk := hs.coherent he (by simp [hp])
  by_cases hi : s.seq.i.val < 31
  · rw [roundStep_of_lt hi]
    exact
      { expanded_bound := fun _ => hk
        busy_bound := fun _ => ⟨hk, hov⟩
        idle_index := fun h => by simp [hp] at h
        kexp_window := fun h => by simp [hp] at h
        crypt_expanded := fun _ => he
        coherent := fun _ _ => hrk }
  · rw [roundStep_of_last (Sequencer.eq_last_of_not_lt hi)]
    exact
      { expanded_bound := fun _ => hk
        busy_bound := fun h => absurd rfl h
        idle_index := fun _ => rfl
        kexp_window := nofun
        crypt_expanded := nofun
        coherent := fun _ _ => hrk }

/-- Settles O46, event by event: each event's own lemma keeps the invariant. -/
theorem stepKeepsInvariant : Obligations.StepKeepsInvariant := by
  unfold Obligations.StepKeepsInvariant
  intro s t hs h
  cases StepEvent.of_step h with
  | reset => exact engineInv_resetEngine _
  | fault => exact hs.congr (by simp) (by simp) (by simp) (by simp) (by simp) (by simp) (by simp)
  | setkey ha => exact (hs.bindKey ha.idle _).withSchedule _
  | enc ha hk => exact (hs.acceptBlock ha.idle hk _ _).withSchedule _
  | dec ha hk => exact (hs.acceptBlock ha.idle hk _ _).withSchedule _
  | expand hp => exact (hs.keyExpansionStep hp).withSchedule _
  | round hp => exact (hs.roundStep hp).withSchedule _
  | keep e => exact hs.congr e.mkey e.rk e.kw e.keyBound e.expanded e.outValid e.seq

/-! ### The key states by their flags (R27) -/

theorem State.keyState_eq_noKey_iff (s : State) :
    s.keyState = some .noKey ↔ s.keyBound = false ∧ s.expanded = false := by
  unfold State.keyState; cases s.keyBound <;> cases s.expanded <;> simp

theorem State.keyState_eq_unexpanded_iff (s : State) :
    s.keyState = some .unexpanded ↔ s.keyBound = true ∧ s.expanded = false := by
  unfold State.keyState; cases s.keyBound <;> cases s.expanded <;> simp

theorem State.keyState_eq_expanded_iff (s : State) :
    s.keyState = some .expanded ↔ s.keyBound = true ∧ s.expanded = true := by
  unfold State.keyState; cases s.keyBound <;> cases s.expanded <;> simp

/-- The key state is a function of the two flags. -/
theorem State.keyState_congr {s t : State} (hk : t.keyBound = s.keyBound) (he : t.expanded = s.expanded) :
    t.keyState = s.keyState := by
  unfold State.keyState; rw [hk, he]

/-- The flag pair that encodes no key state does not occur (R27). -/
theorem EngineInv.keyState_ne_none {s : State} (hs : EngineInv s) : s.keyState ≠ none := by
  by_cases he : s.expanded = true
  · simp [State.keyState, hs.expanded_bound he, he]
  · cases hk : s.keyBound <;> simp [State.keyState, hk, he]

/-- A key expansion runs in Unexpanded (R27, R30). -/
theorem EngineInv.keyState_of_kexp {s : State} (hs : EngineInv s) (hp : s.seq.phase = .kexp) :
    s.keyState = some .unexpanded := by
  obtain ⟨hk, -⟩ := hs.busy_bound (by simp [hp])
  obtain ⟨he, -, -⟩ := hs.kexp_window hp
  exact s.keyState_eq_unexpanded_iff.mpr ⟨hk, he⟩

/-- Only the last key-expansion step changes the key state, to Expanded (R27). -/
theorem EngineInv.keyExpansionStep_keyState {s : State} (hs : EngineInv s) (hp : s.seq.phase = .kexp) :
    (Machine.keyExpansionStep s).keyState = if s.seq.i.val < 31 then s.keyState else some .expanded := by
  obtain ⟨hk, -⟩ := hs.busy_bound (by simp [hp])
  split
  case isTrue hi => exact State.keyState_congr (by simp) (by simp [hi])
  case isFalse hi => exact (State.keyState_eq_expanded_iff _).mpr (by simp [hk, hi])

/-- The changes of the key state over one step (R27). -/
theorem EngineInv.step_keyState {s t : State} (hs : EngineInv s) (h : step s = .next t) :
    t.keyState = s.keyState ∨ Resets s ∨ (∃ len opnd, Accepts s (.setkey len opnd)) ∨
      (s.seq.phase = .kexp ∧ s.seq.i.val = 31 ∧ s.keyState = some .unexpanded ∧ t.keyState = some .expanded) := by
  cases StepEvent.of_step h with
  | reset hr => exact .inr (.inl hr)
  | setkey ha => exact .inr (.inr (.inl ⟨_, _, ha⟩))
  | fault | enc | dec | round => exact .inl (State.keyState_congr (by simp) (by simp))
  | keep e => exact .inl (State.keyState_congr e.keyBound e.expanded)
  | expand hp =>
    have hks := hs.keyExpansionStep_keyState hp
    split at hks
    case isTrue => exact .inl hks
    case isFalse hi => exact .inr (.inr (.inr ⟨hp, Sequencer.eq_last_of_not_lt hi, hs.keyState_of_kexp hp, hks⟩))

/-- An `ENC` or `DEC` accepted in Unexpanded starts the key expansion (R27, R131). -/
theorem acceptBlock_of_unexpanded {s : State} (hu : s.keyState = some .unexpanded) (dir : Dir) (b : Block)
    (rest : List HostAction) :
    let t := acceptBlock dir b { s with host := rest }
    t.seq.phase = .kexp ∧ t.seq.i = 0 ∧ t.keyState = some .unexpanded := by
  obtain ⟨hk, he⟩ := s.keyState_eq_unexpanded_iff.mp hu
  exact ⟨by simp [he], rfl, (State.keyState_eq_unexpanded_iff _).mpr ⟨hk, he⟩⟩

/-- Settles O36: each event's effect on the two flags, and the inversion for the exhaustive last clause. -/
theorem keyStateTransitions : Obligations.KeyStateTransitions := by
  unfold Obligations.KeyStateTransitions
  refine ⟨fun s => ⟨s.keyState_eq_noKey_iff, s.keyState_eq_unexpanded_iff, s.keyState_eq_expanded_iff⟩, ?_⟩
  intro s t hs h
  refine ⟨hs.keyState_ne_none, fun hr => ?reset, fun hp hi hh => ?lastExpansion, fun len opnd ha => ?setkey,
    fun len opnd ha hu => ?block, fun c hc => ?fault, hs.step_keyState h⟩
  case reset =>
    obtain ⟨rest, rfl⟩ := hr.next_eq h
    rfl
  case lastExpansion =>
    cases h.symm.trans (step_of_kexp hp hh)
    simp [hs.keyExpansionStep_keyState hp, hi]
  case setkey =>
    obtain ⟨rest, rfl⟩ := ha.next_eq h
    rfl
  case block =>
    obtain ha | ha := ha
    all_goals
      obtain ⟨rest, rfl⟩ := ha.next_eq h
      exact acceptBlock_of_unexpanded hu _ _ rest
  case fault =>
    obtain ⟨rest, rfl⟩ := hc.next_eq h
    exact State.keyState_congr (by simp) (by simp)

/-! ### `ERR` -/

/-- Outside reset, a step changes `ERR` only from 0, by a fault, to that fault's code (R33). -/
theorem step_err {s t : State} (h : step s = .next t) :
    Resets s ∨ t.err = s.err ∨ (s.err = .none ∧ Faults s t.err) := by
  cases StepEvent.of_step h with
  | reset hr => exact .inl hr
  | setkey | enc | dec | expand | round => exact .inr (.inl (by simp))
  | keep e => exact .inr (.inl e.err)
  | fault hc =>
    by_cases he : s.err = .none
    · exact .inr (.inr ⟨he, by simpa [he] using hc⟩)
    · exact .inr (.inl (by simp [he]))

/-- Settles O35: a fault writes its code into an `ERR` of 0 and no other event but reset writes `ERR`. -/
theorem errIsStickyUntilReset : Obligations.ErrIsStickyUntilReset := by
  unfold Obligations.ErrIsStickyUntilReset
  refine ⟨⟨rfl, rfl, rfl, rfl⟩, fun s t h =>
    ⟨fun hne hr => ?sticky, fun hr => ?reset, fun hs ht => ?written, fun hs c hc => ?fault⟩⟩
  case sticky =>
    obtain hr' | he | ⟨he, -⟩ := step_err h
    · exact absurd hr' hr
    · exact he
    · exact absurd he hne
  case reset =>
    obtain ⟨rest, rfl⟩ := hr.next_eq h
    rfl
  case written =>
    obtain hr | he | ⟨-, hf⟩ := step_err h
    · obtain ⟨rest, rfl⟩ := hr.next_eq h
      exact absurd rfl ht
    · exact absurd (he.trans hs) ht
    · exact hf
  case fault =>
    obtain ⟨rest, rfl⟩ := hc.next_eq h
    simp [hs]

/-! ### The flags (R28) -/

/-- `KEY_BOUND` is written by an accepted `SETKEY` and by reset alone. -/
theorem step_keyBound {s t : State} (h : step s = .next t) :
    (Resets s ∧ t.keyBound = false) ∨ ((∃ len opnd, Accepts s (.setkey len opnd)) ∧ t.keyBound = true) ∨
      t.keyBound = s.keyBound := by
  cases StepEvent.of_step h with
  | reset hr => exact .inl ⟨hr, rfl⟩
  | setkey ha => exact .inr (.inl ⟨⟨_, _, ha⟩, rfl⟩)
  | fault | enc | dec | expand | round => exact .inr (.inr (by simp))
  | keep e => exact .inr (.inr e.keyBound)

/-- `EXPANDED` is set in (KEXP, 31) and cleared by an accepted `SETKEY` and by reset. -/
theorem step_expanded {s t : State} (h : step s = .next t) :
    ((Resets s ∨ ∃ len opnd, Accepts s (.setkey len opnd)) ∧ t.expanded = false) ∨
      (s.seq.phase = .kexp ∧ s.seq.i.val = 31 ∧ t.expanded = true) ∨ t.expanded = s.expanded := by
  cases StepEvent.of_step h with
  | reset hr => exact .inl ⟨.inl hr, rfl⟩
  | setkey ha => exact .inl ⟨.inr ⟨_, _, ha⟩, rfl⟩
  | fault | enc | dec | round => exact .inr (.inr (by simp))
  | keep e => exact .inr (.inr e.expanded)
  | expand hp =>
    by_cases hi : s.seq.i.val < 31
    · exact .inr (.inr (by simp [hi]))
    · exact .inr (.inl ⟨hp, Sequencer.eq_last_of_not_lt hi, by simp [hi]⟩)

/-- `OUT_VALID` is set in (CRYPT, 31) and cleared by an accepted `ENC` or `DEC` and by reset. -/
theorem step_outValid {s t : State} (h : step s = .next t) :
    ((Resets s ∨ (∃ len opnd, Accepts s (.enc len opnd)) ∨ ∃ len opnd, Accepts s (.dec len opnd)) ∧ t.outValid = false) ∨
      (s.seq.phase = .crypt ∧ s.seq.i.val = 31 ∧ t.outValid = true) ∨ t.outValid = s.outValid := by
  cases StepEvent.of_step h with
  | reset hr => exact .inl ⟨.inl hr, rfl⟩
  | enc ha => exact .inl ⟨.inr (.inl ⟨_, _, ha⟩), rfl⟩
  | dec ha => exact .inl ⟨.inr (.inr ⟨_, _, ha⟩), rfl⟩
  | fault | setkey | expand => exact .inr (.inr (by simp))
  | keep e => exact .inr (.inr e.outValid)
  | round hp =>
    by_cases hi : s.seq.i.val < 31
    · exact .inr (.inr (by simp [hi]))
    · exact .inr (.inl ⟨hp, Sequencer.eq_last_of_not_lt hi, by simp [hi]⟩)

/-- Settles O37: once it is known which events write each flag, with which value, the rest is propositional. -/
theorem flagsChangeOnlyAsListed : Obligations.FlagsChangeOnlyAsListed := by
  unfold Obligations.FlagsChangeOnlyAsListed
  intro s t h
  have hk := step_keyBound h
  have he := step_expanded h
  have hv := step_outValid h
  refine ⟨?_, ?_, ?_, ?_, ?_, ?_⟩ <;> grind

/-! ### The sequencer (R29) -/

/-- Settles O38, row by row of R29. -/
theorem sequencerWalk : Obligations.SequencerWalk := by
  unfold Obligations.SequencerWalk
  intro s t h
  refine ⟨fun len opnd ha => ?setkey, fun c hc => ?fault, fun len opnd ha => ?enc, fun len opnd ha => ?dec,
    fun hh hp hi => ?expansion, fun hh hp hi => ?lastExpansion, fun hh hp hi => ?round, fun hh hp hi => ?lastRound,
    fun hr => ?reset⟩
  case setkey | enc | dec =>
    obtain ⟨rest, rfl⟩ := ha.next_eq h
    rfl
  case fault =>
    obtain ⟨rest, rfl⟩ := hc.next_eq h
    simp
  case expansion =>
    cases h.symm.trans (step_of_kexp hp hh)
    rw [keyExpansionStep_of_lt hi]
    exact ⟨hp, rfl, rfl⟩
  case lastExpansion =>
    cases h.symm.trans (step_of_kexp hp hh)
    rw [keyExpansionStep_of_last hi]
  case round =>
    cases h.symm.trans (step_of_crypt hp hh)
    rw [roundStep_of_lt hi]
    exact ⟨hp, rfl, rfl⟩
  case lastRound =>
    cases h.symm.trans (step_of_crypt hp hh)
    rw [roundStep_of_last hi]
  case reset =>
    obtain ⟨rest, rfl⟩ := hr.next_eq h
    rfl

/-! ### The registers `MK`, `RK` and `DOUT` -/

/-- Settles O39: of the events, only reset and an accepted `SETKEY` write `MK`. -/
theorem keyChangesOnlyBySetkeyOrReset : Obligations.KeyChangesOnlyBySetkeyOrReset := by
  unfold Obligations.KeyChangesOnlyBySetkeyOrReset
  intro s t h hne
  cases StepEvent.of_step h with
  | reset hr => exact .inl hr
  | setkey ha => exact .inr ⟨_, _, ha, rfl⟩
  | fault | enc | dec | expand | round => exact absurd (by simp) hne
  | keep e => exact absurd e.mkey hne

/-- Key-expansion step `i` leaves every entry but `RK[i]` alone (R26, R133). -/
theorem keyExpansionStep_rk_getElem_of_ne {s : State} {j : Fin 32} (hj : j ≠ s.seq.i) :
    (keyExpansionStep s).rk[j] = s.rk[j] := by
  have hne : s.seq.i.val ≠ j.val := fun e => hj (Fin.ext e.symm)
  simp [Vector.getElem_set_ne, hne]

/-- Settles O40: of the events, only reset, an accepted `SETKEY` and a key-expansion step write `RK`. -/
theorem roundKeysWrittenOnlyByExpansion : Obligations.RoundKeysWrittenOnlyByExpansion := by
  unfold Obligations.RoundKeysWrittenOnlyByExpansion
  intro s t h hne
  cases StepEvent.of_step h with
  | reset hr => exact .inl hr
  | setkey ha => exact .inr (.inl ⟨_, _, ha⟩)
  | expand hp => exact .inr (.inr ⟨hp, fun _ hj => keyExpansionStep_rk_getElem_of_ne hj⟩)
  | fault | enc | dec | round => exact absurd (by simp) hne
  | keep e => exact absurd e.rk hne

/-- Of the events, only reset and the last round step write `DOUT` (R24). -/
theorem step_dout {s t : State} (h : step s = .next t) (hne : t.dout ≠ s.dout) :
    Resets s ∨ (s.seq.phase = .crypt ∧ s.seq.i.val = 31) := by
  cases StepEvent.of_step h with
  | reset hr => exact .inl hr
  | fault | setkey | enc | dec | expand => exact absurd (by simp) hne
  | keep e => exact absurd e.dout hne
  | round hp =>
    refine .inr ⟨hp, Sequencer.eq_last_of_not_lt fun hi => ?_⟩
    simp [hi] at hne

/-- Settles O41: the last round step is a step of a busy engine, which has no valid output. -/
theorem outputChangesOnlyInLastRound : Obligations.OutputChangesOnlyInLastRound := by
  unfold Obligations.OutputChangesOnlyInLastRound
  intro s t h hne
  refine ⟨step_dout h hne, fun hs hv => ?_⟩
  obtain hr | ⟨hp, -⟩ := step_dout h hne
  · exact hr
  · obtain ⟨-, hov⟩ := hs.busy_bound (by simp [hp])
    exact absurd (hv.symm.trans hov) nofun

/-! ### The host's reads and the presented command -/

/-- The bits of a byte laid out as `STATUS` is (R32). -/
theorem statusLayout_bits (e : BitVec 2) (v b x k : Bool) :
    let w : Byte := 0#2 ++ e ++ BitVec.ofBool v ++ BitVec.ofBool b ++ BitVec.ofBool x ++ BitVec.ofBool k
    w.getLsbD 0 = k ∧ w.getLsbD 1 = x ∧ w.getLsbD 2 = b ∧ w.getLsbD 3 = v ∧ w.extractLsb' 4 2 = e ∧
      w.extractLsb' 6 2 = 0 := by
  revert e v b x k
  decide

/-- A host read of `STATUS` is one step (R32). -/
theorem step_of_readStatus {s : State} {rest : List HostAction} (hh : s.host = .readStatus :: rest) :
    step s = .next (hostReadStatus { s with host := rest }) := by
  simp [step, advance, hh]

/-- A host read of `DOUT` is one step (R217). -/
theorem step_of_readDout {s : State} {rest : List HostAction} (hh : s.host = .readDout :: rest) :
    step s = .next (hostReadDout { s with host := rest }) := by
  simp [step, advance, hh]

/-- Settles O42: the layout gives the bits, and the read records them. -/
theorem statusReadAtAnyTime : Obligations.StatusReadAtAnyTime := by
  unfold Obligations.StatusReadAtAnyTime
  refine ⟨fun s => ?_, fun s rest hh => step_of_readStatus hh, by decide⟩
  obtain ⟨hk, hx, hb, hv, herr, hzero⟩ := statusLayout_bits s.err.code s.outValid s.busy s.expanded s.keyBound
  exact ⟨hk, hx, by rw [State.status, hb]; simp [State.busy], hv, herr, hzero⟩

/-- Settles O48: acceptance of a word that decodes is execution of what it decodes to. -/
theorem stepRunsDecodedCommand : Obligations.StepRunsDecodedCommand := by
  unfold Obligations.StepRunsDecodedCommand
  intro s cw opnd rest i hp hd
  rw [step_of_presented hp, acceptCommand, hd]

/-- Settles O51: a read of `DOUT` writes only the record of reads and the count of draws. -/
theorem doutReadAtAnyTime : Obligations.DoutReadAtAnyTime := by
  unfold Obligations.DoutReadAtAnyTime
  intro s rest hh
  refine ⟨_, _, step_of_readDout hh, rfl, fun hv => ?_, rfl, rfl, rfl, rfl, rfl, rfl, rfl, rfl, rfl, rfl, rfl⟩
  simp [State.doutRead, hv]

end Sys2Proof.Machine

/-! SUPPORT. The constant ROMs: `CK` by its formula, and `subb` as the flat S-box table with an inverse table beside it. -/

namespace Sys2Proof.Machine

/-! ### `CK` (20_memory R57) -/

/-- Settles O7: the claim is about the 128 bytes of a closed table, each compared with the formula. -/
theorem roundConstantsFollowFormula : Obligations.RoundConstantsFollowFormula := by
  unfold Obligations.RoundConstantsFollowFormula
  decide

/-! ### The S-box (20_memory R52) -/

/-- The entries of a flattened table are those of its rows, in order. -/
theorem toList_flatten_vector {α : Type} {m n : Nat} (rows : Vector (Vector α m) n) :
    rows.flatten.toList = (rows.toList.map Vector.toList).flatten := by
  have htoList : (Vector.toList : Vector α m → List α) = Array.toList ∘ Vector.toArray := rfl
  simp [htoList, Vector.flatten, Vector.toList]

/-- Row high nibble and column low nibble are entry `16·row + col = b` of the flat table (R52). -/
theorem subb_eq_flatten_getElem (b : Byte) : subb b = sbox.flatten[b.toNat] := by
  have hrow : (b.extractLsb' 4 4).toNat = b.toNat / 16 := by
    rw [BitVec.extractLsb'_toNat, Nat.shiftRight_eq_div_pow]
    omega
  have hcol : (b.extractLsb' 0 4).toNat = b.toNat % 16 := BitVec.extractLsb'_toNat 0 4 b
  rw [Vector.getElem_flatten]
  simp only [← hrow, ← hcol]
  rfl

/-- The inverse of `sbox`, laid out as it is: row = high nibble, column = low nibble of `subb`'s result. -/
def invSbox : Vector (Vector Byte 16) 16 :=
  #v[#v[0x71, 0x6c, 0x7a, 0xb8, 0x16, 0x0f, 0x1e, 0x41, 0x35, 0xeb, 0xd0, 0x2a, 0xe4, 0xac, 0x62, 0x5a],
    #v[0xcd, 0xc8, 0xdb, 0x1a, 0x0a, 0x8e, 0x08, 0x46, 0xf0, 0x4b, 0x96, 0xc1, 0x32, 0xa0, 0x60, 0xcc],
    #v[0xf7, 0x6d, 0x69, 0xaa, 0x61, 0x68, 0x1b, 0x76, 0x0c, 0xa9, 0x14, 0x10, 0x0e, 0xd8, 0xa3, 0xb7],
    #v[0x9b, 0xd2, 0x9a, 0x28, 0x95, 0x5f, 0x79, 0xb2, 0x86, 0xfe, 0xf4, 0x6b, 0x4a, 0x06, 0xfb, 0x3e],
    #v[0x84, 0xcb, 0x21, 0x2b, 0x19, 0xb3, 0x72, 0x40, 0xff, 0x1c, 0xe3, 0x5b, 0x78, 0xf6, 0xae, 0x4e],
    #v[0x22, 0xbf, 0x77, 0xad, 0x29, 0x97, 0x5d, 0x73, 0x65, 0x49, 0xce, 0xbe, 0xca, 0x92, 0x63, 0xfa],
    #v[0xa7, 0x8d, 0x2f, 0x64, 0x55, 0xe8, 0xa5, 0x11, 0x50, 0xe1, 0xba, 0x51, 0xbd, 0xbc, 0xed, 0xaf],
    #v[0x5c, 0x54, 0xbb, 0x45, 0xd9, 0x3c, 0x13, 0xe6, 0x6e, 0xf8, 0x27, 0xd6, 0x6a, 0xf2, 0xe7, 0xc7],
    #v[0x38, 0x52, 0xa4, 0x48, 0xef, 0x4d, 0x1d, 0x6f, 0xd3, 0xe0, 0x82, 0x57, 0x9d, 0xc0, 0xb6, 0x3d],
    #v[0x01, 0x24, 0xc3, 0x99, 0x3a, 0x37, 0xe5, 0xe2, 0x26, 0x1f, 0x12, 0x94, 0x20, 0x5e, 0x7f, 0x74],
    #v[0x7c, 0x8f, 0x67, 0x88, 0x93, 0xd4, 0x3f, 0x42, 0x4f, 0x33, 0x18, 0xab, 0x2e, 0x98, 0x91, 0xc2],
    #v[0xdf, 0x9e, 0x53, 0x31, 0xde, 0x87, 0x09, 0x07, 0xdc, 0xe9, 0x47, 0xc4, 0xc6, 0xd7, 0x15, 0x81],
    #v[0xa8, 0xd1, 0x0b, 0x17, 0x7d, 0xec, 0xee, 0x85, 0x7e, 0x34, 0xa6, 0xfd, 0x04, 0xd5, 0x8b, 0x2d],
    #v[0xda, 0x66, 0x83, 0x75, 0x70, 0xb0, 0x00, 0xfc, 0xcf, 0xc9, 0x56, 0xb1, 0xf5, 0xc5, 0xb4, 0x39],
    #v[0x90, 0x05, 0xa2, 0x9f, 0x30, 0xdd, 0x4c, 0x7b, 0x36, 0x02, 0x80, 0x59, 0xf3, 0x2c, 0xf9, 0x25],
    #v[0xf1, 0xea, 0x8a, 0x44, 0x23, 0x9c, 0xa1, 0x89, 0x58, 0x8c, 0x3b, 0x0d, 0x43, 0xb5, 0x03, 0xb9]]

/-- The byte whose `subb` is `c`, by the inverse table. -/
def invSubb (c : Byte) : Byte := invSbox[(c.extractLsb' 4 4).toFin][(c.extractLsb' 0 4).toFin]

/-- The inverse table undoes `subb`, byte by byte. -/
theorem invSubb_leftInverse_subb : Function.LeftInverse invSubb subb := by
  unfold Function.LeftInverse
  decide

/-- No two bytes have the same `subb` (R103). -/
theorem subb_injective : Function.Injective subb := invSubb_leftInverse_subb.injective

/-- `subb` permutes the bytes: an injection of a finite type into itself (R103). -/
theorem subb_bijective : Function.Bijective subb := Finite.injective_iff_bijective.mp subb_injective

/-- Settles O8: the flat index and the permutation by the lemmas above, the one zero by injectivity; the one fixed point is a
comparison of the 256 entries with their own index. -/
theorem subbIsAPermutationTable : Obligations.SubbIsAPermutationTable := by
  unfold Obligations.SubbIsAPermutationTable
  refine ⟨fun b => ?entry, subb_bijective, fun b => ?zero, ?fixedPoint⟩
  case entry =>
    rw [← toList_flatten_vector, subb_eq_flatten_getElem]
    simp
  case zero =>
    have hzero : subb 0x71 = 0x00 := by decide
    exact subb_injective.eq_iff' hzero
  case fixedPoint => decide

end Sys2Proof.Machine

/-! SUPPORT. The command format and the assembler: the fields of a command word, what each class of words decodes to, and where the
bytes of an operand stand (30_encoding R81 to R88). -/

namespace Sys2Proof

/-! ### The fields of a command word (R81) -/

/-- `op` is the word divided by 32. -/
theorem cwOp_toNat (cw : Byte) : (cwOp cw).toNat = cw.toNat / 32 := by
  rw [cwOp, BitVec.extractLsb'_toNat, Nat.shiftRight_eq_div_pow]
  omega

/-- `len` is the word modulo 32. -/
theorem cwLen_toNat (cw : Byte) : (cwLen cw).toNat = cw.toNat % 32 :=
  BitVec.extractLsb'_toNat 0 5 cw

/-- The two fields make up the whole word. -/
theorem cwOp_append_cwLen (cw : Byte) : cwOp cw ++ cwLen cw = cw :=
  BitVec.extractLsb'_append_extractLsb'

@[simp] theorem cwOp_append (op : BitVec 3) (len : BitVec 5) : cwOp (op ++ len) = op := BitVec.extractLsb'_append_eq_left

@[simp] theorem cwLen_append (op : BitVec 3) (len : BitVec 5) : cwLen (op ++ len) = len := BitVec.extractLsb'_append_eq_right

/-! ### The decoder, class by class (R83, R85) -/

theorem decode_of_op_setkey {cw : Byte} (h : cwOp cw = 0b001#3) (opnd : Block) :
    decode cw opnd = .ok (.setkey (cwLen cw) opnd) := by
  simp [decode, h]

theorem decode_of_op_enc {cw : Byte} (h : cwOp cw = 0b010#3) (opnd : Block) :
    decode cw opnd = .ok (.enc (cwLen cw) opnd) := by
  simp [decode, h]

theorem decode_of_op_dec {cw : Byte} (h : cwOp cw = 0b011#3) (opnd : Block) :
    decode cw opnd = .ok (.dec (cwLen cw) opnd) := by
  simp [decode, h]

theorem decode_of_op_reserved {cw : Byte} (h1 : cwOp cw ≠ 0b001#3) (h2 : cwOp cw ≠ 0b010#3) (h3 : cwOp cw ≠ 0b011#3) (opnd : Block) :
    decode cw opnd = .error (.reservedOp (cwOp cw)) := by
  rw [decode, if_neg h1, if_neg h2, if_neg h3]

/-- Settles O1: the fields of each command's word select its own branch of the decoder. -/
theorem decodeOfEncode : Obligations.DecodeOfEncode := by
  unfold Obligations.DecodeOfEncode
  intro i
  cases i with
  | setkey len opnd =>
    obtain ⟨hop, hlen⟩ := Laws.EncodedWord.setkey len opnd
    rw [decode_of_op_setkey hop, hlen, encode, Instr.operand]
  | enc len opnd =>
    obtain ⟨hop, hlen⟩ := Laws.EncodedWord.enc len opnd
    rw [decode_of_op_enc hop, hlen, encode, Instr.operand]
  | dec len opnd =>
    obtain ⟨hop, hlen⟩ := Laws.EncodedWord.dec len opnd
    rw [decode_of_op_dec hop, hlen, encode, Instr.operand]

/-- What a decoded command says of the pair it came from: `op` names it, and it carries `len` and the operand. -/
theorem decode_eq_ok {cw : Byte} {opnd : Block} {i : Instr} (h : decode cw opnd = .ok i) :
    (cwOp cw = 1 ∧ i = .setkey (cwLen cw) opnd) ∨ (cwOp cw = 2 ∧ i = .enc (cwLen cw) opnd) ∨
      (cwOp cw = 3 ∧ i = .dec (cwLen cw) opnd) := by
  by_cases h1 : cwOp cw = 1
  · rw [decode_of_op_setkey h1] at h
    exact .inl ⟨h1, (Except.ok.inj h).symm⟩
  by_cases h2 : cwOp cw = 2
  · rw [decode_of_op_enc h2] at h
    exact .inr (.inl ⟨h2, (Except.ok.inj h).symm⟩)
  by_cases h3 : cwOp cw = 3
  · rw [decode_of_op_dec h3] at h
    exact .inr (.inr ⟨h3, (Except.ok.inj h).symm⟩)
  · rw [decode_of_op_reserved h1 h2 h3] at h
    exact absurd h nofun

/-- Settles O2: the decoded command has the `op` and `len` of the word, and these make up the word. -/
theorem encodeOfDecode : Obligations.EncodeOfDecode := by
  unfold Obligations.EncodeOfDecode
  intro cw opnd i h
  have hword := cwOp_append_cwLen cw
  obtain ⟨hop, rfl⟩ | ⟨hop, rfl⟩ | ⟨hop, rfl⟩ := decode_eq_ok h
  all_goals
    rw [hop] at hword
    exact Prod.ext hword rfl

/-- `op` as a range of words: the 32 words from `32·op` on. -/
theorem cwOp_eq_iff (cw : Byte) (op : BitVec 3) :
    cwOp cw = op ↔ 32 * op.toNat ≤ cw.toNat ∧ cw.toNat ≤ 32 * op.toNat + 31 := by
  rw [← BitVec.toNat_inj, cwOp_toNat]
  omega

/-- Settles O3: the first three ranges are the words of one `op` each, the last holds those of every other `op`, and `len` is what the
word has above the start of its range. -/
theorem decodeClassifiesEveryWord : Obligations.DecodeClassifiesEveryWord := by
  unfold Obligations.DecodeClassifiesEveryWord
  intro cw opnd
  refine ⟨fun hr => ⟨cwLen cw, decode_of_op_setkey ((cwOp_eq_iff cw 1).mpr hr) opnd, ?_, ?_⟩,
    fun hr => ⟨cwLen cw, decode_of_op_enc ((cwOp_eq_iff cw 2).mpr hr) opnd, ?_, ?_⟩,
    fun hr => ⟨cwLen cw, decode_of_op_dec ((cwOp_eq_iff cw 3).mpr hr) opnd, ?_, ?_⟩, fun hr => ?reserved⟩
  case reserved =>
    have hop : ∀ op : BitVec 3, 1 ≤ op.toNat → op.toNat ≤ 3 → cwOp cw ≠ op := by
      intro op hlo hhi h
      have := (cwOp_eq_iff cw op).mp h
      omega
    exact decode_of_op_reserved (hop 1 (by decide) (by decide)) (hop 2 (by decide) (by decide))
      (hop 3 (by decide) (by decide)) opnd
  all_goals
    simp only [Instr.wellFormed, decide_eq_true_iff, cwLen_toNat]
    omega

/-- Settles O4: seven closed words, each run through the decoder. -/
theorem sampleWordsDecode : Obligations.SampleWordsDecode := by
  unfold Obligations.SampleWordsDecode
  decide

end Sys2Proof

namespace Sys2Proof.Machine

/-! ### The bytes of an operand (R82), counted from the right: byte `k` of a block is its bits `8k+7..8k` -/

/-- A byte taken in from the right stands in the low eight bits. -/
theorem shiftInByte_low (x : Block) (b : Byte) : (x <<< 8 ||| b.setWidth 128).extractLsb' 0 8 = b := by
  apply BitVec.eq_of_getLsbD_eq
  intro i hi
  have hi' : i < 128 := by omega
  simp [hi, hi']

/-- Every other byte moves up by one place. -/
theorem shiftInByte_succ (x : Block) (b : Byte) {k : Nat} (hk : k < 15) :
    (x <<< 8 ||| b.setWidth 128).extractLsb' (8 * (k + 1)) 8 = x.extractLsb' (8 * k) 8 := by
  apply BitVec.eq_of_getLsbD_eq
  intro i hi
  have hinBlock : 8 * (k + 1) + i < 128 := by omega
  have haboveByte : ¬ 8 * (k + 1) + i < 8 := by omega
  have hsource : 8 * (k + 1) + i - 8 = 8 * k + i := by omega
  simp only [BitVec.getLsbD_extractLsb', BitVec.getLsbD_or, BitVec.getLsbD_shiftLeft, BitVec.getLsbD_setWidth]
  simp [hi, hinBlock, haboveByte, hsource, BitVec.getLsbD_of_ge b _ (Nat.le_of_not_lt haboveByte)]

/-- One byte more at the end of an operand is one byte taken in from the right. -/
theorem operandOf_concat (filler : Block) (d : List Byte) (b : Byte) :
    operandOf filler (d ++ [b]) = operandOf filler d <<< 8 ||| b.setWidth 128 := by
  have hpack : packBytes (d ++ [b]) = packBytes d <<< 8 ||| b.setWidth 128 := List.foldl_concat ..
  have hshift : filler <<< (8 * (d ++ [b]).length) = filler <<< (8 * d.length) <<< 8 := by
    rw [← BitVec.shiftLeft_add, List.length_append, List.length_singleton, Nat.mul_add]
  rw [operandOf, hpack, hshift, operandOf, BitVec.shiftLeft_or_distrib, BitVec.or_assoc]

/-- Settles O5, by induction on the last byte: it is the low byte, and the ones before it stand one place higher. -/
theorem operandBytesRightAligned : Obligations.OperandBytesRightAligned := by
  unfold Obligations.OperandBytesRightAligned
  intro filler d
  induction d using List.reverseRecOn with
  | nil => exact fun _ j h => absurd h (Nat.not_lt_zero j)
  | append_singleton d b ih =>
    intro hd j hj
    rw [List.length_append, List.length_singleton] at hd hj
    rw [operandOf_concat, List.length_append, List.length_singleton]
    obtain rfl | hlt : j = d.length ∨ j < d.length := by omega
    · simpa using shiftInByte_low (operandOf filler d) b
    · have hplace : d.length + 1 - 1 - j = d.length - 1 - j + 1 := by omega
      rw [hplace, shiftInByte_succ _ _ (by omega), List.getElem_append_left hlt]
      exact ih (by omega) j hlt

/-- `Norm` bit by bit: the low `8n` bits are kept, the ones above them zero (R102). -/
theorem normOpnd_getLsbD (x : Block) (n i : Nat) :
    (normOpnd x n).getLsbD i = (x.getLsbD i && decide (i < 8 * n)) := by
  rw [normOpnd, BitVec.getLsbD_and, BitVec.getLsbD_ofNat, Nat.testBit_two_pow_sub_one]
  by_cases hi : i < 128
  · simp [hi]
  · simp [BitVec.getLsbD_of_ge x i (Nat.le_of_not_lt hi)]

/-- `Norm` byte by byte: the low `n` bytes are kept, the ones above them zero (R102). -/
theorem normOpnd_byte (x : Block) (n k : Nat) :
    (normOpnd x n).extractLsb' (8 * k) 8 = if k < n then x.extractLsb' (8 * k) 8 else 0#8 := by
  apply BitVec.eq_of_getLsbD_eq
  intro i hi
  by_cases hk : k < n
  · have hkept : 8 * k + i < 8 * n := by omega
    simp [normOpnd_getLsbD, hk, hkept]
  · have habove : ¬ 8 * k + i < 8 * n := by omega
    simp [normOpnd_getLsbD, hk, habove]

/-- `Norm` of all 16 bytes changes nothing. -/
theorem normOpnd_full (x : Block) : normOpnd x 16 = x := BitVec.and_allOnes

/-- Within 16 bytes `ZeroPad` to 128 bits puts zeros before the data, at 16 bytes none. -/
theorem zeroPad_block {d : List Byte} (h : d.length ≤ 16) :
    zeroPad d 128 = some (List.replicate (16 - d.length) 0#8 ++ d) := by
  by_cases hfull : d.length = 16
  · simp [zeroPad, hfull]
  · simp [zeroPad, hfull, h]

@[simp] theorem bytesOf_length (b : Block) : (bytesOf b).length = 16 := by
  simp [bytesOf]

/-- Byte `k` from the left is byte `15 - k` from the right (R10). -/
theorem bytesOf_getElem (b : Block) {k : Nat} (hk : k < (bytesOf b).length) :
    (bytesOf b)[k] = b.extractLsb' (8 * (15 - k)) 8 := by
  have hplace : 120 - 8 * k = 8 * (15 - k) := by omega
  simp [bytesOf, byteOf, hplace]

/-- The normalised operand, first byte first: zeros, then the data, whatever stood above it (R82, R102). -/
theorem bytesOf_normOpnd_operandOf (filler : Block) {d : List Byte} (h : d.length ≤ 16) :
    bytesOf (normOpnd (operandOf filler d) d.length) = List.replicate (16 - d.length) 0#8 ++ d := by
  have hzeros : (List.replicate (16 - d.length) 0#8).length = 16 - d.length := List.length_replicate
  apply List.ext_getElem
  · rw [bytesOf_length, List.length_append, hzeros]
    omega
  intro k hk _
  rw [bytesOf_getElem, normOpnd_byte]
  rw [bytesOf_length] at hk
  by_cases hdata : 15 - k < d.length
  · have hright : 15 - k = d.length - 1 - (k - (16 - d.length)) := by omega
    rw [if_pos hdata, List.getElem_append_right (by omega), hright,
      operandBytesRightAligned filler d h _ (by omega)]
    simp only [hzeros]
  · rw [if_neg hdata, List.getElem_append_left (by omega), List.getElem_replicate]

/-- An operand of `n ≤ 16` bytes is normalised to its zero-padded bytes (R102). -/
theorem bytesOf_normOpnd_eq_zeroPad (filler : Block) {d : List Byte} (h : d.length ≤ 16) :
    some (bytesOf (normOpnd (operandOf filler d) d.length)) = zeroPad d 128 := by
  rw [bytesOf_normOpnd_operandOf filler h, zeroPad_block h]

/-- An operand of 16 bytes is these bytes: nothing is left of the filler. -/
theorem bytesOf_operandOf (filler : Block) {d : List Byte} (h : d.length = 16) : bytesOf (operandOf filler d) = d := by
  have key := bytesOf_normOpnd_operandOf filler h.le
  rwa [h, normOpnd_full, Nat.sub_self, List.replicate_zero, List.nil_append] at key

@[simp] theorem cwOp_asmWord (op : BitVec 3) (d : List Byte) : cwOp (asmWord op d) = op := cwOp_append ..

@[simp] theorem cwLen_asmWord (op : BitVec 3) (d : List Byte) : cwLen (asmWord op d) = BitVec.ofNat 5 d.length :=
  cwLen_append ..

/-- Settles O6: the assembled word has the line's `op` and its byte count as `len`, and its operand carries the bytes. -/
theorem assembledLinesDecode : Obligations.AssembledLinesDecode := by
  unfold Obligations.AssembledLinesDecode
  intro filler d hd
  have hpad := bytesOf_normOpnd_eq_zeroPad filler hd
  refine ⟨⟨_, _, if_pos hd, ?setkey, hpad⟩, ⟨_, _, if_pos hd, ?enc, hpad⟩,
    fun hfull => ⟨_, _, if_pos hfull, ?dec, bytesOf_operandOf filler hfull⟩⟩
  case setkey => rw [decode_of_op_setkey (cwOp_asmWord ..), cwLen_asmWord]
  case enc => rw [decode_of_op_enc (cwOp_asmWord ..), cwLen_asmWord]
  case dec => rw [decode_of_op_dec (cwOp_asmWord ..), cwLen_asmWord, hfull]

end Sys2Proof.Machine

/-! SUPPORT. The combinational functions: rotation bit by bit and over XOR, the byte lanes of a word and the words of a block, and
`Norm` as a number (40_primitives R100 to R112). -/

namespace Sys2Proof.Machine

/-! ### Four lanes of one width: the bytes of a word (R104), the words of a block (R112) -/

/-- A slice that begins `s` bits above the lower part of an append is a slice of its upper part. -/
theorem extractLsb'_append_add {n m : Nat} (x : BitVec n) (y : BitVec m) (s len : Nat) :
    (x ++ y).extractLsb' (s + m) len = x.extractLsb' s len := by
  rw [BitVec.extractLsb'_append_eq_of_le (Nat.le_add_left m s), Nat.add_sub_cancel]

/-- The middle one of three values side by side begins where the last one ends. -/
theorem extractLsb'_append_middle {n k m : Nat} (x : BitVec n) (y : BitVec k) (z : BitVec m) :
    (x ++ y ++ z).extractLsb' m k = y := by
  rw [BitVec.extractLsb'_append_eq_of_le le_rfl, Nat.sub_self, BitVec.extractLsb'_append_eq_right]

/-- The lanes of four values side by side are these values, the first one most significant. -/
theorem lanes_append {m : Nat} (a b c d : BitVec m) :
    (a ++ b ++ c ++ d).extractLsb' (m + m + m) m = a ∧ (a ++ b ++ c ++ d).extractLsb' (m + m) m = b ∧
      (a ++ b ++ c ++ d).extractLsb' m m = c ∧ (a ++ b ++ c ++ d).extractLsb' 0 m = d := by
  refine ⟨?first, ?second, extractLsb'_append_middle .., BitVec.extractLsb'_append_eq_right⟩
  case first => rw [extractLsb'_append_add, extractLsb'_append_add, BitVec.extractLsb'_append_eq_left]
  case second => rw [extractLsb'_append_add, extractLsb'_append_middle]

/-- Four adjacent lanes side by side are the slice they cover, whose lowest bit is `s`. -/
theorem append_lanes {n : Nat} (x : BitVec n) (m s : Nat) :
    x.extractLsb' (s + m + m + m) m ++ x.extractLsb' (s + m + m) m ++ x.extractLsb' (s + m) m ++ x.extractLsb' s m =
      x.extractLsb' s (m + m + m + m) := by
  rw [BitVec.extractLsb'_append_extractLsb'_eq_extractLsb' rfl, BitVec.extractLsb'_append_extractLsb'_eq_extractLsb' (by omega),
    BitVec.extractLsb'_append_extractLsb'_eq_extractLsb' (by omega)]

/-- Settles O15: both inverse laws and the big-endian bytes are the two laws of four lanes, at 32 bits and at 8. -/
theorem wordsAreBigEndian : Obligations.WordsAreBigEndian := by
  unfold Obligations.WordsAreBigEndian
  refine ⟨fun b => ?bytes, fun b => ?join, fun q => ?split⟩
  case bytes =>
    exact ⟨(append_lanes b 8 96).symm, (append_lanes b 8 64).symm, (append_lanes b 8 32).symm, (append_lanes b 8 0).symm⟩
  case join => exact (append_lanes b 32 0).trans BitVec.extractLsb'_eq_self
  case split =>
    obtain ⟨h0, h1, h2, h3⟩ := lanes_append q.w0 q.w1 q.w2 q.w3
    exact Quad.ext h0 h1 h2 h3

/-! ### `tau` (R104) -/

/-- Lane `k` of `tau`, lane 0 least significant, is `subb` of the same lane. -/
theorem tau_lane (w : Word) {k : Nat} (hk : k < 4) : (tau w).extractLsb' (8 * k) 8 = subb (w.extractLsb' (8 * k) 8) := by
  obtain ⟨h3, h2, h1, h0⟩ := lanes_append (subb (w.extractLsb' 24 8)) (subb (w.extractLsb' 16 8)) (subb (w.extractLsb' 8 8))
    (subb (w.extractLsb' 0 8))
  match k, hk with
  | 0, _ => exact h0
  | 1, _ => exact h1
  | 2, _ => exact h2
  | 3, _ => exact h3

/-- A word is determined by its four byte lanes. -/
theorem word_ext_lanes {a b : Word} (h : ∀ k < 4, a.extractLsb' (8 * k) 8 = b.extractLsb' (8 * k) 8) : a = b := by
  have hlanes (w : Word) : w.extractLsb' 24 8 ++ w.extractLsb' 16 8 ++ w.extractLsb' 8 8 ++ w.extractLsb' 0 8 = w :=
    (append_lanes w 8 0).trans BitVec.extractLsb'_eq_self
  rw [← hlanes a, ← hlanes b, h 3 (by decide), h 2 (by decide), h 1 (by decide), h 0 (by decide)]

/-- No two words have the same `tau`: lane by lane, `subb` is injective. -/
theorem tau_injective : Function.Injective tau := by
  intro a b h
  refine word_ext_lanes fun k hk => subb_injective ?_
  rw [← tau_lane a hk, ← tau_lane b hk, h]

/-- Settles O9: each lane is `subb` of the same lane, so `tau` is injective, and so bijective on the finite set of words. -/
theorem tauActsOnByteLanes : Obligations.TauActsOnByteLanes := by
  unfold Obligations.TauActsOnByteLanes
  exact ⟨fun w _ hk => tau_lane w hk, fun _ => rfl, Finite.injective_iff_bijective.mp tau_injective, by decide⟩

/-! ### Rotation (R100) -/

/-- Bit `k` of a rotation by `n` is bit `(k - n) mod 32` of the word. -/
theorem rotl_getLsbD (w : Word) {n k : Nat} (hn : n ≤ 32) (hk : k < 32) :
    (rotl w n).getLsbD k = w.getLsbD ((k + 32 - n) % 32) := by
  have hor : (rotl w n).getLsbD k = (decide (n ≤ k) && w.getLsbD (k - n) || w.getLsbD (32 - n + k)) := by
    rw [rotl, BitVec.getLsbD_ofNat, Nat.testBit_or, Nat.testBit_shiftLeft, Nat.testBit_shiftRight]
    simp [hk, BitVec.getLsbD]
  by_cases hwrap : k < n
  · have hfrom : (k + 32 - n) % 32 = 32 - n + k := by omega
    simp [hor, hfrom, hwrap]
  · have hfrom : (k + 32 - n) % 32 = k - n := by omega
    have hout : w.getLsbD (32 - n + k) = false := w.getLsbD_of_ge _ (by omega)
    simp [hor, hfrom, hout, Nat.le_of_not_lt hwrap]

theorem rotl_toNat (w : Word) (n : Nat) :
    (rotl w n).toNat = ((w.toNat * 2 ^ n) ||| (w.toNat / 2 ^ (32 - n))) % 2 ^ 32 := by
  rw [rotl, BitVec.toNat_ofNat, Nat.shiftLeft_eq, Nat.shiftRight_eq_div_pow]

/-- A rotation fixes every word that has, at each bit, the value of the bit it brings there. -/
theorem rotl_eq_self {w : Word} {n : Nat} (hn : n ≤ 32) (h : ∀ k < 32, w.getLsbD ((k + 32 - n) % 32) = w.getLsbD k) :
    rotl w n = w :=
  BitVec.eq_of_getLsbD_eq fun k hk => (rotl_getLsbD w hn hk).trans (h k hk)

@[simp] theorem rotl_by_zero (w : Word) : rotl w 0 = w :=
  rotl_eq_self (by decide) fun k hk => by rw [Nat.sub_zero, Nat.add_mod_right, Nat.mod_eq_of_lt hk]

@[simp] theorem rotl_by_width (w : Word) : rotl w 32 = w :=
  rotl_eq_self (by decide) fun k hk => by rw [Nat.add_sub_cancel, Nat.mod_eq_of_lt hk]

theorem rotl_zero {n : Nat} (hn : n ≤ 32) : rotl 0 n = 0 :=
  rotl_eq_self hn fun _ _ => by rw [BitVec.ofNat_eq_ofNat, BitVec.getLsbD_zero, BitVec.getLsbD_zero]

theorem rotl_allOnes {n : Nat} (hn : n ≤ 32) : rotl (BitVec.allOnes 32) n = BitVec.allOnes 32 :=
  rotl_eq_self hn fun k hk => by
    have hin : (k + 32 - n) % 32 < 32 := Nat.mod_lt _ (by decide)
    rw [BitVec.getLsbD_allOnes, BitVec.getLsbD_allOnes, decide_eq_true hin, decide_eq_true hk]

/-- Rotation by any amount of its domain is linear over XOR: it moves each bit to a place that depends on the amount alone. -/
theorem rotl_xor (a b : Word) {n : Nat} (hn : n ≤ 32) : rotl (a ^^^ b) n = rotl a n ^^^ rotl b n := by
  apply BitVec.eq_of_getLsbD_eq
  intro k hk
  rw [BitVec.getLsbD_xor, rotl_getLsbD _ hn hk, rotl_getLsbD _ hn hk, rotl_getLsbD _ hn hk, BitVec.getLsbD_xor]

/-- Settles O10: the formula and the bit rule are lemmas, and the identity and the fixed words follow from the bit rule. -/
theorem rotlMovesEveryBit : Obligations.RotlMovesEveryBit := by
  unfold Obligations.RotlMovesEveryBit
  intro w n
  exact ⟨fun hn => ⟨if_pos hn, rotl_toNat w n, fun k hk => rotl_getLsbD w hn hk, rotl_zero hn, rotl_allOnes hn⟩,
    fun hn => if_neg (Nat.not_le_of_lt hn), rotl_by_zero w, rotl_by_width w⟩

/-! ### The linear transforms and the composites (R105 to R108) -/

theorem linKey_xor (a b : Word) : linKey (a ^^^ b) = linKey a ^^^ linKey b := by
  simp only [linKey, rotl_xor a b (show 13 ≤ 32 by decide), rotl_xor a b (show 23 ≤ 32 by decide)]
  ac_rfl

theorem linEnc_xor (a b : Word) : linEnc (a ^^^ b) = linEnc a ^^^ linEnc b := by
  simp only [linEnc, rotl_xor a b (show 2 ≤ 32 by decide), rotl_xor a b (show 10 ≤ 32 by decide),
    rotl_xor a b (show 18 ≤ 32 by decide), rotl_xor a b (show 24 ≤ 32 by decide)]
  ac_rfl

/-- Settles O11: both transforms are XORs of rotations, each of which is linear; the values are closed. -/
theorem linearTransformsAreLinear : Obligations.LinearTransformsAreLinear := by
  unfold Obligations.LinearTransformsAreLinear
  exact ⟨fun _ => rfl, fun _ => rfl, linKey_xor, linEnc_xor, by decide⟩

/-- Settles O12: the composites are defined as such, and their values are closed. -/
theorem mixingFunctionsCompose : Obligations.MixingFunctionsCompose := by
  unfold Obligations.MixingFunctionsCompose
  exact ⟨fun _ => rfl, fun _ => rfl, by decide⟩

/-! ### `Norm` and `ZeroPad` (R101, R102) -/

/-- `Norm` as a number: the mask takes the remainder modulo `256^len`. -/
theorem normOpnd_toNat (opnd : Block) {len : Nat} (h : len ≤ 16) : (normOpnd opnd len).toNat = opnd.toNat % 2 ^ (8 * len) := by
  have hmask : 2 ^ (8 * len) - 1 < 2 ^ 128 := by
    have hpow : 2 ^ (8 * len) ≤ 2 ^ 128 := Nat.pow_le_pow_right (by decide) (by omega)
    omega
  rw [normOpnd, BitVec.toNat_and, BitVec.toNat_ofNat, Nat.mod_eq_of_lt hmask, Nat.and_two_pow_sub_one_eq_mod]

/-- `Norm` of no bytes is zero. -/
theorem normOpnd_zero (opnd : Block) : normOpnd opnd 0 = 0 := BitVec.and_zero

/-- Settles O13: the mask as a remainder, its two ends, and the bytes of a normalised operand. -/
theorem normIsZeroPad : Obligations.NormIsZeroPad := by
  unfold Obligations.NormIsZeroPad
  exact ⟨fun opnd _ h => normOpnd_toNat opnd h, fun opnd => ⟨normOpnd_zero opnd, normOpnd_full opnd⟩,
    fun filler _ h => (bytesOf_normOpnd_eq_zeroPad filler h).symm⟩

/-- Settles O14: the first four clauses are the branches of the definition, the last is `ZeroPad` to a block. -/
theorem zeroPadDomain : Obligations.ZeroPadDomain := by
  unfold Obligations.ZeroPadDomain
  intro data targetBits
  refine ⟨fun hbits => if_pos hbits, fun hbits hfull => ?shortcut, fun hbits hlen hlong => ?tooLong, fun hbits hlen hfits => ?padded,
    fun hdata => ⟨_, zeroPad_block hdata, ?length, ?data, ?zeros⟩⟩
  case shortcut => rw [zeroPad, if_neg (not_not_intro hbits), if_pos hfull]
  case tooLong => rw [zeroPad, if_neg (not_not_intro hbits), if_neg hlen, if_neg (Nat.not_le_of_lt hlong)]
  case padded => rw [zeroPad, if_neg (not_not_intro hbits), if_neg hlen, if_pos hfits]
  case length =>
    rw [List.length_append, List.length_replicate]
    omega
  case data => exact List.drop_left' List.length_replicate
  case zeros =>
    rw [List.take_left' List.length_replicate]
    exact fun _ hb => List.eq_of_mem_replicate hb

end Sys2Proof.Machine

/-! SUPPORT. The key schedule: the words `K'0 … K'35` behind the windows, and what a run of key-expansion steps leaves
(41_key_schedule R130 to R135). -/

namespace Sys2Proof.Machine

/-! ### `Expand` by its recurrence (R134) -/

/-- The words `K'0 … K'35` of a key: the four words of the start, then the round keys in order (R134); 0 stands for the words after
`K'35`, which no statement reads. -/
def scheduleWord (m : Quad) : Nat → Word
  | 0 => (keyStart m).w0
  | 1 => (keyStart m).w1
  | 2 => (keyStart m).w2
  | 3 => (keyStart m).w3
  | n + 4 => if h : n < 32 then (expand m)[n] else 0

theorem scheduleWord_add_four (m : Quad) {n : Nat} (h : n < 32) : scheduleWord m (n + 4) = (expand m)[n] := dif_pos h

/-- The window before step `n` is `(K'n, …, K'(n+3))`; the one before step 32 is what the last step leaves. -/
theorem windowAt_eq_scheduleWords (m : Quad) {n : Nat} (h : n ≤ 32) :
    windowAt m n = ⟨scheduleWord m n, scheduleWord m (n + 1), scheduleWord m (n + 2), scheduleWord m (n + 3)⟩ := by
  induction n with
  | zero => rfl
  | succ n ih =>
    rw [windowAt_succ m n h, ← expand_getElem m n h, ih (Nat.le_of_lt h), ← scheduleWord_add_four m h]
    rfl

/-- Settles O16: the words behind the windows obey the recurrence, because each round key is the one its window gives. -/
theorem expandFollowsRecurrence : Obligations.ExpandFollowsRecurrence := by
  unfold Obligations.ExpandFollowsRecurrence
  refine fun m => ⟨scheduleWord m, rfl, rfl, rfl, rfl, fun i => ⟨?_, scheduleWord_add_four m i.isLt⟩⟩
  have hkey := expand_getElem m i.val i.isLt
  rw [windowAt_eq_scheduleWords m (Nat.le_of_lt i.isLt)] at hkey
  exact hkey

/-! ### One key-expansion step (R133) -/

/-- Settles O18: with no host move the step is the key-expansion step, whose two forms differ in `EXPANDED` and the sequencer. -/
theorem keyExpansionStep_writes_and_frame : Obligations.KeyExpansionStep := by
  unfold Obligations.KeyExpansionStep
  intro s hp hh
  refine ⟨keyExpansionStep s, step_of_kexp hp hh, ?entry, fun j hj => keyExpansionStep_rk_getElem_of_ne hj, keyExpansionStep_kw s,
    fun hi => ?before, fun hi => ?last, keyExpansionStep_dir s, keyExpansionStep_mkey s, keyExpansionStep_xw s,
    keyExpansionStep_dout s, keyExpansionStep_keyBound s, keyExpansionStep_outValid s, keyExpansionStep_err s,
    keyExpansionStep_host s, keyExpansionStep_reads s⟩
  case entry =>
    simp only [keyExpansionStep_rk, Fin.getElem_fin, Vector.getElem_set_self]
    rfl
  case before =>
    rw [keyExpansionStep_of_lt hi]
    exact ⟨hp, rfl, rfl⟩
  case last =>
    rw [keyExpansionStep_of_last hi]
    exact ⟨rfl, rfl, rfl⟩

/-! ### A run of key-expansion steps (R135) -/

/-- The first `n` key-expansion steps for the key `m` are done: `KW` is the window before step `n`, and `RK[j]` is in place for all
`j < n` (R30). Unlike `EngineInv`, it asks nothing of the flags. -/
structure ExpandedUpTo (m : Quad) (n : Nat) (s : State) : Prop where
  window : s.kw = windowAt m n
  roundKeys : ∀ j : Fin 32, j.val < n → s.rk[j] = (expand m)[j]

/-- Key-expansion step `i` puts one more round key in place, the last one included. -/
theorem ExpandedUpTo.keyExpansionStep {m : Quad} {n : Nat} {s : State} (h : ExpandedUpTo m n s) (hi : s.seq.i.val = n) :
    ExpandedUpTo m (n + 1) (keyExpansionStep s) := by
  subst hi
  refine ⟨?window, fun j hj => ?roundKeys⟩
  case window =>
    rw [keyExpansionStep_kw, h.window, windowAt_succ m _ s.seq.i.isLt]
    rfl
  case roundKeys =>
    obtain rfl | hne := eq_or_ne j s.seq.i
    · simp [h.window, expand_getElem]
    · rw [keyExpansionStep_rk_getElem_of_ne hne]
      exact h.roundKeys j (by omega)

/-- After `n` key-expansion steps from index 0, all before the last one, the engine is in KEXP at index `n` (R29). -/
theorem keyExpansionStep_iterate_seq {s : State} (hp : s.seq.phase = .kexp) (hi : s.seq.i = 0) {n : Nat} (hn : n < 32) :
    (keyExpansionStep^[n] s).seq = { phase := .kexp, i := ⟨n, hn⟩, dir := s.seq.dir } := by
  induction n with
  | zero =>
    rw [← hp]
    exact congrArg (Sequencer.mk _ · _) hi
  | succ n ih =>
    have hseq := ih (Nat.lt_of_succ_lt hn)
    have hlt : (keyExpansionStep^[n] s).seq.i.val < 31 := by rw [hseq]; exact Nat.lt_of_succ_lt_succ hn
    rw [Function.iterate_succ_apply', keyExpansionStep_of_lt hlt]
    simp only [hseq]

/-- `n` key-expansion steps from the key-expansion start put `n` round keys in place. -/
theorem expandedUpTo_iterate {s : State} (hp : s.seq.phase = .kexp) (hi : s.seq.i = 0) (hkw : s.kw = keyStart s.mkey) {n : Nat}
    (hn : n ≤ 32) : ExpandedUpTo s.mkey n (keyExpansionStep^[n] s) := by
  induction n with
  | zero => exact ⟨hkw, fun _ h => absurd h (Nat.not_lt_zero _)⟩
  | succ n ih =>
    have hindex : (keyExpansionStep^[n] s).seq.i.val = n := by rw [keyExpansionStep_iterate_seq hp hi hn]
    rw [Function.iterate_succ_apply']
    exact (ih (Nat.le_of_lt hn)).keyExpansionStep hindex

/-- Settles O19: step by step the round keys come into place, and the last step sets `EXPANDED` and enters CRYPT. -/
theorem expansionStepsEqualExpand : Obligations.ExpansionStepsEqualExpand := by
  unfold Obligations.ExpansionStepsEqualExpand
  intro s hp hi hkw t
  have hdone : ExpandedUpTo s.mkey 32 t := expandedUpTo_iterate hp hi hkw le_rfl
  have hseq := keyExpansionStep_iterate_seq hp hi (n := 31) (by decide)
  have hlast := keyExpansionStep_of_last (s := keyExpansionStep^[31] s) (by rw [hseq])
  have ht : t = keyExpansionStep (keyExpansionStep^[31] s) := Function.iterate_succ_apply' ..
  refine ⟨Vector.ext fun j hj => hdone.roundKeys ⟨j, hj⟩ hj, ?expanded, ?sequencer, ?window⟩
  case expanded => rw [ht, hlast]
  case sequencer => simp only [ht, hlast, hseq]
  case window => exact hdone.window.trans (windowAt_eq_scheduleWords s.mkey le_rfl)

/-! ### `SETKEY` (R130) -/

/-- Settles O17: a legal length does not fault, so `SETKEY` answers the state with the key bound. -/
theorem setkeyBindsTheKey : Obligations.SetkeyBindsTheKey := by
  unfold Obligations.SetkeyBindsTheKey
  intro len opnd s hlen
  have hexec : exec (.setkey len opnd) s = .next (bindKey (normOpnd opnd len.toNat) s) := by
    rw [exec, execSetkey_eq, if_neg (Nat.not_lt.mpr hlen)]
  exact ⟨_, hexec, rfl, rfl, rfl, rfl, rfl, rfl, rfl, rfl, rfl, rfl, rfl, rfl, rfl, rfl⟩

end Sys2Proof.Machine

/-! SUPPORT. The round datapath: `Crypt` round by round and backwards, what a command's acceptance step and each round step leave, and
what holds when the engine is idle again (42_round_datapath R150 to R162). -/

namespace Sys2Proof.Machine

/-! ### `F` (R153) -/

/-- For fixed other words and key, `F` is its own inverse in `X0`. -/
@[simp] theorem roundF_roundF (x0 x1 x2 x3 k : Word) : roundF (roundF x0 x1 x2 x3 k) x1 x2 x3 k = x0 := by
  simp only [roundF, BitVec.xor_assoc, BitVec.xor_self, BitVec.xor_zero]

/-- Settles O20: `F` XORs the same word into `X0` each time, which cancels; the value at zero is closed. -/
theorem roundFunctionIsFeistel : Obligations.RoundFunctionIsFeistel := by
  unfold Obligations.RoundFunctionIsFeistel
  exact ⟨fun _ _ _ _ _ => rfl, roundF_roundF, by decide⟩

/-! ### `Crypt`, one round at a time (R152) -/

/-- The data window of `b` before round `n` under the keys `ks`: `(Xn, …, X(n+3))`. -/
def dataWindow (b : Block) (ks : Vector Word 32) (n : Nat) : Quad := (ks.toList.take n).foldl roundShift (words b)

@[simp] theorem dataWindow_zero (b : Block) (ks : Vector Word 32) : dataWindow b ks 0 = words b := rfl

theorem dataWindow_succ (b : Block) (ks : Vector Word 32) {n : Nat} (h : n < 32) :
    dataWindow b ks (n + 1) = roundShift (dataWindow b ks n) ks[n] := by
  unfold dataWindow
  rw [List.take_add_one, List.foldl_append, show ks.toList[n]? = some ks[n] by simp [h]]
  rfl

/-- `Crypt` reverses the window that the 32 rounds leave. -/
theorem crypt_eq_outputBlock_dataWindow (b : Block) (ks : Vector Word 32) :
    crypt b ks = outputBlock (dataWindow b ks 32) := by
  rw [crypt, dataWindow, List.take_of_length_le (by simp)]

/-- The words `X0 … X35` of a block under 32 round keys (R152); 0 stands for the words after `X35`, which no statement reads. -/
def dataWord (b : Block) (ks : Vector Word 32) : Nat → Word
  | 0 => (words b).w0
  | 1 => (words b).w1
  | 2 => (words b).w2
  | 3 => (words b).w3
  | n + 4 =>
    if h : n < 32 then
      roundF (dataWord b ks n) (dataWord b ks (n + 1)) (dataWord b ks (n + 2)) (dataWord b ks (n + 3)) ks[n]
    else 0

theorem dataWord_add_four (b : Block) (ks : Vector Word 32) {n : Nat} (h : n < 32) :
    dataWord b ks (n + 4) =
      roundF (dataWord b ks n) (dataWord b ks (n + 1)) (dataWord b ks (n + 2)) (dataWord b ks (n + 3)) ks[n] := dif_pos h

/-- The window before round `n` is `(Xn, …, X(n+3))`; the one before round 32 is what the last round leaves. -/
theorem dataWindow_eq_dataWords (b : Block) (ks : Vector Word 32) {n : Nat} (h : n ≤ 32) :
    dataWindow b ks n = ⟨dataWord b ks n, dataWord b ks (n + 1), dataWord b ks (n + 2), dataWord b ks (n + 3)⟩ := by
  induction n with
  | zero => rfl
  | succ n ih =>
    rw [dataWindow_succ b ks h, ih (Nat.le_of_lt h), dataWord_add_four b ks h]
    rfl

/-! ### The reversed key order (R152, R156, R160) -/

theorem reverseKeys_eq_reverse (rk : Vector Word 32) : reverseKeys rk = rk.reverse := by
  ext i hi
  simp [reverseKeys]

theorem reverseKeys_reverseKeys (rk : Vector Word 32) : reverseKeys (reverseKeys rk) = rk := by
  simp only [reverseKeys_eq_reverse, Vector.reverse_reverse]

/-- Settles O21: the words behind the data windows obey the recurrence, and the last window, reversed, is the output. -/
theorem cryptFollowsRecurrence : Obligations.CryptFollowsRecurrence := by
  unfold Obligations.CryptFollowsRecurrence
  refine ⟨fun b rk => ⟨dataWord b rk, rfl, fun i => dataWord_add_four b rk i.isLt, ?output⟩, fun rk i j hij => ?order, by decide⟩
  case output =>
    rw [crypt_eq_outputBlock_dataWindow, dataWindow_eq_dataWords b rk le_rfl]
    rfl
  case order => simp [reverseKeys, ← hij]

/-- The four words of a window, newest first: the order in which the output is written (R152). -/
def newestFirst (x : Quad) : Quad := ⟨x.w3, x.w2, x.w1, x.w0⟩

/-- `F` does not depend on the order of its other words. -/
theorem roundF_swap (x0 x1 x2 x3 k : Word) : roundF x0 x3 x2 x1 k = roundF x0 x1 x2 x3 k := by
  have hxor : x3 ^^^ x2 ^^^ x1 = x1 ^^^ x2 ^^^ x3 := by ac_rfl
  rw [roundF, hxor, roundF]

/-- A round on the reversed result of a round under the same key takes that round back: its newest word is `F` of the oldest, with
the same three words between. -/
theorem roundShift_newestFirst_roundShift (x : Quad) (k : Word) :
    roundShift (newestFirst (roundShift x k)) k = newestFirst x := by
  simp [roundShift, shiftIn, newestFirst, roundF_swap]

/-- The rounds under the reversed list of keys, on the reversed result of the rounds, take these back. -/
theorem foldl_roundShift_newestFirst (ks : List Word) (x : Quad) :
    ks.reverse.foldl roundShift (newestFirst (ks.foldl roundShift x)) = newestFirst x := by
  induction ks generalizing x with
  | nil => rfl
  | cons k ks ih => simp [ih, roundShift_newestFirst_roundShift]

theorem words_outputBlock (x : Quad) : words (outputBlock x) = newestFirst x := by
  obtain ⟨-, -, hsplit⟩ := wordsAreBigEndian
  exact hsplit _

theorem outputBlock_newestFirst_words (b : Block) : outputBlock (newestFirst (words b)) = b := by
  obtain ⟨-, hjoin, -⟩ := wordsAreBigEndian
  exact hjoin b

theorem crypt_reverseKeys_crypt (b : Block) (rk : Vector Word 32) : crypt (crypt b rk) (reverseKeys rk) = b := by
  rw [crypt, crypt, words_outputBlock, reverseKeys_eq_reverse, Vector.toList_reverse, foldl_roundShift_newestFirst,
    outputBlock_newestFirst_words]

theorem crypt_crypt_reverseKeys (b : Block) (rk : Vector Word 32) : crypt (crypt b (reverseKeys rk)) rk = b := by
  simpa only [reverseKeys_reverseKeys] using crypt_reverseKeys_crypt b (reverseKeys rk)

/-- Settles O22: each round taken under the reversed keys takes one round back; reversing twice gives the second half. -/
theorem reversedKeysInvertCrypt : Obligations.ReversedKeysInvertCrypt := by
  unfold Obligations.ReversedKeysInvertCrypt
  exact fun b rk => ⟨crypt_reverseKeys_crypt b rk, crypt_crypt_reverseKeys b rk⟩

/-! ### The acceptance step (R154) -/

/-- An `ENC` of legal length with a key bound is accepted. -/
theorem exec_enc {len : BitVec 5} (hlen : len.toNat ≤ 16) (opnd : Block) {s : State} (hk : s.keyBound = true) :
    exec (.enc len opnd) s = .next (acceptBlock .e (normOpnd opnd len.toNat) s) := by
  simp [exec, execEnc_eq, Nat.not_lt.mpr hlen, hk]

/-- A `DEC` of 16 bytes with a key bound is accepted. -/
theorem exec_dec {len : BitVec 5} (hlen : len.toNat = 16) (opnd : Block) {s : State} (hk : s.keyBound = true) :
    exec (.dec len opnd) s = .next (acceptBlock .d opnd s) := by
  simp [exec, execDec_eq, hlen, hk]

/-- Settles O23: both commands answer the state with the block accepted, whose phase and `KW` depend on `EXPANDED`. -/
theorem encAndDecAcceptance : Obligations.EncAndDecAcceptance := by
  unfold Obligations.EncAndDecAcceptance
  intro i dir b s hk hi
  have hexec : exec i s = .next (acceptBlock dir b s) := by
    obtain ⟨len, opnd, rfl, hlen, rfl, rfl⟩ | ⟨len, rfl, hlen, rfl⟩ := hi
    · exact exec_enc hlen opnd hk
    · exact exec_dec hlen b hk
  refine ⟨_, hexec, rfl, rfl, rfl, rfl, fun he => ?expanded, fun he => ?unexpanded, rfl, rfl, rfl, rfl, rfl, rfl, rfl, rfl⟩
  case expanded => simp [he]
  case unexpanded => simp [he, keyStart]

/-! ### The round step (R155, R156, R158) -/

/-- The round keys in the order in which a command of the given direction reads them (R156). -/
def orderedKeys (dir : Dir) (rk : Vector Word 32) : Vector Word 32 :=
  match dir with
  | .e => rk
  | .d => reverseKeys rk

/-- Round `i` reads entry `i` of the ordered round keys. -/
theorem orderedKeys_getElem (dir : Dir) (rk : Vector Word 32) (i : Fin 32) :
    (orderedKeys dir rk)[i] = rk[roundKeyIndex dir i] := by
  cases dir with
  | e => rfl
  | d => simp [orderedKeys, reverseKeys, roundKeyIndex]

/-- Settles O24: with no host move the step is the round step, whose two forms differ in what they do with the shifted window. -/
theorem roundStep_writes_and_frame : Obligations.RoundStep := by
  unfold Obligations.RoundStep
  intro s hp hh
  refine ⟨roundStep s, roundKeyIndex s.seq.dir s.seq.i, step_of_crypt hp hh, fun hd => ?forward, fun hd => ?backward,
    fun hi => ?before, fun hi => ?last, roundStep_dir s, roundStep_mkey s, roundStep_rk s, roundStep_keyBound s,
    roundStep_expanded s, roundStep_err s, roundStep_host s, roundStep_reads s⟩
  case forward | backward => rw [hd, roundKeyIndex]
  case before =>
    rw [roundStep_of_lt hi]
    exact ⟨rfl, rfl, hp, rfl, rfl, rfl⟩
  case last =>
    rw [roundStep_of_last hi]
    exact ⟨rfl, rfl, rfl, rfl⟩

/-- Settles O30: the last round step writes the whole output block, whose four lanes are the shifted window's words. -/
theorem outputWrittenInOneStep : Obligations.OutputWrittenInOneStep := by
  unfold Obligations.OutputWrittenInOneStep
  intro s hp hi hh
  refine ⟨roundStep s, step_of_crypt hp hh, ?_⟩
  rw [roundStep_of_last hi]
  exact ⟨rfl, lanes_append ..⟩

/-- Decryption counts the indices down from 31: `Fin.rev` (R156). -/
theorem roundKeyIndex_d (i : Fin 32) : roundKeyIndex .d i = i.rev :=
  Fin.ext (by simp only [roundKeyIndex, Fin.val_rev]; omega)

/-- Settles O29: decryption counts the indices down, so it reads the reversed list; the witness of the order is closed. -/
theorem roundKeyOrderReversed : Obligations.RoundKeyOrderReversed := by
  unfold Obligations.RoundKeyOrderReversed
  refine ⟨fun rk => ?keys, fun i => ⟨rfl, rfl⟩, by decide⟩
  rw [← List.map_reverse, List.finRange_reverse, List.map_map]
  exact List.map_congr_left fun i _ => congrArg (fun j : Fin 32 => rk[j]) (roundKeyIndex_d i)

/-! ### A run to the next idle state (R157, R222) -/

/-- A bound that goes down at each step of a busy engine; no statement speaks of it. -/
def stepsLeft (s : State) : Nat :=
  match s.seq.phase with
  | .idle => 0
  | .kexp => 64 - s.seq.i.val
  | .crypt => 32 - s.seq.i.val

theorem engineStep_of_kexp {s : State} (hp : s.seq.phase = .kexp) : engineStep s = keyExpansionStep s := by
  simp [engineStep, hp]

theorem engineStep_of_crypt {s : State} (hp : s.seq.phase = .crypt) : engineStep s = roundStep s := by
  simp [engineStep, hp]

theorem stepsLeft_engineStep_lt {s : State} (hb : s.seq.phase ≠ .idle) : stepsLeft (engineStep s) < stepsLeft s := by
  cases hp : s.seq.phase with
  | idle => exact absurd hp hb
  | kexp =>
    rw [engineStep_of_kexp hp]
    by_cases hi : s.seq.i.val < 31
    · have hcount : 64 - (s.seq.i.val + 1) < 64 - s.seq.i.val := by omega
      simpa [keyExpansionStep_of_lt hi, stepsLeft, hp] using hcount
    · have hlast := Sequencer.eq_last_of_not_lt hi
      simp [keyExpansionStep_of_last hlast, stepsLeft, hp, hlast]
  | crypt =>
    rw [engineStep_of_crypt hp]
    by_cases hi : s.seq.i.val < 31
    · have hcount : 32 - (s.seq.i.val + 1) < 32 - s.seq.i.val := by omega
      simpa [roundStep_of_lt hi, stepsLeft, hp] using hcount
    · have hlast := Sequencer.eq_last_of_not_lt hi
      simp [roundStep_of_last hlast, stepsLeft, hp, hlast]

/-- A busy engine whose host makes no move reaches an idle state, and what each step of a busy engine keeps holds there. -/
theorem RunsToIdle.exists_of_kept {P : State → Prop} (hkeep : ∀ u, u.seq.phase ≠ .idle → P u → P (engineStep u)) {s : State}
    (hh : hostHolds s = true) (hs : P s) : ∃ t, RunsToIdle s t ∧ t.seq.phase = .idle ∧ P t := by
  by_cases hb : s.seq.phase = .idle
  · exact ⟨s, .idle hb, hb, hs⟩
  · obtain ⟨hhost, -⟩ := engineStep_frame s
    obtain ⟨t, hrun, hidle, ht⟩ := exists_of_kept hkeep ((hostHolds_congr hhost).trans hh) (hkeep s hb hs)
    exact ⟨t, .busy hb (step_of_busy hb hh) hrun, hidle, ht⟩
termination_by stepsLeft s
decreasing_by exact stepsLeft_engineStep_lt hb

/-- The idle state that a run reaches is the only one (R161). -/
theorem RunsToIdle.unique {s t w : State} (ht : RunsToIdle s t) (hw : RunsToIdle s w) : w = t := by
  induction ht with
  | idle hidle =>
    cases hw with
    | idle => rfl
    | busy hb => exact absurd hidle hb
  | busy hb hstep _ ih =>
    cases hw with
    | idle hidle => exact absurd hidle hb
    | busy _ hstep' hrun =>
      cases hstep.symm.trans hstep'
      exact ih hrun

/-- What no step of a busy engine writes: the key binding, `ERR`, the host's schedule and what it has read. -/
structure SameSetting (s t : State) : Prop where
  mkey : t.mkey = s.mkey
  keyBound : t.keyBound = s.keyBound
  err : t.err = s.err
  host : t.host = s.host
  reads : t.reads = s.reads

theorem SameSetting.engineStep {s u : State} (h : SameSetting s u) : SameSetting s (engineStep u) := by
  obtain ⟨hhost, herr, hmkey, hkeyBound, hreads⟩ := engineStep_frame u
  exact ⟨hmkey.trans h.mkey, hkeyBound.trans h.keyBound, herr.trans h.err, hhost.trans h.host, hreads.trans h.reads⟩

/-- Settles O49: each step of a busy engine brings IDLE nearer, and keeps what the claim says is unchanged. -/
theorem everyCommandCompletes : Obligations.EveryCommandCompletes := by
  unfold Obligations.EveryCommandCompletes
  intro s hh
  obtain ⟨t, hrun, hidle, ht⟩ := RunsToIdle.exists_of_kept (P := SameSetting s) (fun _ _ h => h.engineStep) hh
    ⟨rfl, rfl, rfl, rfl, rfl⟩
  exact ⟨t, hrun, hidle, ht.host, ht.err, ht.mkey⟩

/-! ### A command in flight (R159) -/

/-- The engine computes the block `b` in direction `dir` for a command accepted in `s`: `XW` is the data window before the next round,
and once idle `DOUT` is the result. -/
structure Computing (dir : Dir) (b : Block) (s u : State) : Prop where
  inv : EngineInv u
  setting : SameSetting s u
  dir_eq : u.seq.dir = dir
  in_kexp : u.seq.phase = .kexp → u.xw = words b
  in_crypt : u.seq.phase = .crypt → u.xw = dataWindow b (orderedKeys dir (expand s.mkey)) u.seq.i.val
  in_idle : u.seq.phase = .idle →
    u.dout = crypt b (orderedKeys dir (expand s.mkey)) ∧ u.outValid = true ∧ u.expanded = true

/-- A key-expansion step leaves `XW` alone, and the last one enters round 0. -/
theorem Computing.keyExpansionStep {dir : Dir} {b : Block} {s u : State} (h : Computing dir b s u)
    (hp : u.seq.phase = .kexp) : Computing dir b s (keyExpansionStep u) := by
  have hset := h.setting.engineStep
  rw [engineStep_of_kexp hp] at hset
  have hinv := h.inv.keyExpansionStep hp
  by_cases hi : u.seq.i.val < 31
  · rw [keyExpansionStep_of_lt hi] at hset hinv ⊢
    exact ⟨hinv, hset, h.dir_eq, fun _ => h.in_kexp hp, fun hc => absurd (hp.symm.trans hc) nofun,
      fun hid => absurd (hp.symm.trans hid) nofun⟩
  · rw [keyExpansionStep_of_last (Sequencer.eq_last_of_not_lt hi)] at hset hinv ⊢
    exact ⟨hinv, hset, h.dir_eq, nofun, fun _ => h.in_kexp hp, nofun⟩

/-- In the rounds, the shifted window of round `i` is the data window before round `i + 1`. -/
theorem Computing.roundShift_eq {dir : Dir} {b : Block} {s u : State} (h : Computing dir b s u) (hp : u.seq.phase = .crypt) :
    roundShift u.xw u.rk[roundKeyIndex u.seq.dir u.seq.i] =
      dataWindow b (orderedKeys dir (expand s.mkey)) (u.seq.i.val + 1) := by
  have hrk : u.rk = expand s.mkey := by
    rw [h.inv.coherent (h.inv.crypt_expanded hp) (by simp [hp]), h.setting.mkey]
  rw [← orderedKeys_getElem, h.in_crypt hp, hrk, h.dir_eq, dataWindow_succ b _ u.seq.i.isLt]
  rfl

/-- A round step shifts `XW` to the next data window, and the last one writes the result. -/
theorem Computing.roundStep {dir : Dir} {b : Block} {s u : State} (h : Computing dir b s u)
    (hp : u.seq.phase = .crypt) : Computing dir b s (roundStep u) := by
  have hset := h.setting.engineStep
  rw [engineStep_of_crypt hp] at hset
  have hx := h.roundShift_eq hp
  have hinv := h.inv.roundStep hp
  by_cases hi : u.seq.i.val < 31
  · rw [roundStep_of_lt hi] at hset hinv ⊢
    exact ⟨hinv, hset, h.dir_eq, fun hk => absurd (hp.symm.trans hk) nofun, fun _ => hx,
      fun hid => absurd (hp.symm.trans hid) nofun⟩
  · have hlast := Sequencer.eq_last_of_not_lt hi
    rw [roundStep_of_last hlast] at hset hinv ⊢
    rw [hlast] at hx
    have hout := congrArg outputBlock hx
    rw [← crypt_eq_outputBlock_dataWindow] at hout
    exact ⟨hinv, hset, h.dir_eq, nofun, nofun, fun _ => ⟨hout, rfl, h.inv.crypt_expanded hp⟩⟩

theorem Computing.engineStep {dir : Dir} {b : Block} {s u : State} (hb : u.seq.phase ≠ .idle) (h : Computing dir b s u) :
    Computing dir b s (engineStep u) := by
  cases hp : u.seq.phase with
  | idle => exact absurd hp hb
  | kexp => rw [engineStep_of_kexp hp]; exact h.keyExpansionStep hp
  | crypt => rw [engineStep_of_crypt hp]; exact h.roundStep hp

/-! ### Whole commands (R150, R151, R159 to R161) -/

/-- The engine is idle with a key bound, `RK` agrees with `MK`, and the host makes no move that acts on a busy engine: the premises of
the claims about whole commands. -/
structure KeyedIdle (s : State) : Prop where
  keyBound : s.keyBound = true
  idle : s.seq.phase = .idle
  coherent : Coherent s
  holds : hostHolds s = true

/-- Acceptance starts the computation, whatever index the idle sequencer had. -/
theorem KeyedIdle.computing_acceptBlock {s : State} (h : KeyedIdle s) (dir : Dir) (b : Block) :
    Computing dir b s (acceptBlock dir b s) := by
  have hinv : EngineInv { s with seq := { s.seq with i := 0 } } :=
    ⟨fun _ => h.keyBound, fun hb => absurd h.idle hb, fun _ => rfl, fun hp => by simp [h.idle] at hp,
      fun hp => by simp [h.idle] at hp, h.coherent⟩
  refine ⟨hinv.acceptBlock h.idle h.keyBound dir b, ⟨rfl, rfl, rfl, rfl, rfl⟩, rfl, fun _ => rfl, fun _ => rfl, fun hp => ?_⟩
  cases he : s.expanded <;> simp [he] at hp

/-- A command accepted in `s` for the block `b` has completed in `t` (R159). -/
structure Completed (dir : Dir) (b : Block) (s t : State) : Prop where
  dout : t.dout = crypt b (orderedKeys dir (expand s.mkey))
  outValid : t.outValid = true
  expanded : t.expanded = true
  rk : t.rk = expand s.mkey
  seq : t.seq = { phase := .idle, i := 0, dir := dir }
  setting : SameSetting s t

/-- In IDLE the computation is complete. -/
theorem Computing.completed {dir : Dir} {b : Block} {s t : State} (h : Computing dir b s t) (hidle : t.seq.phase = .idle) :
    Completed dir b s t := by
  obtain ⟨hdout, hvalid, hexpanded⟩ := h.in_idle hidle
  refine ⟨hdout, hvalid, hexpanded, ?rk, ?seq, h.setting⟩
  case rk => rw [h.inv.coherent hexpanded (by simp [hidle]), h.setting.mkey]
  case seq => rw [← hidle, ← h.inv.idle_index hidle, ← h.dir_eq]

/-- An accepted command runs to completion, whether or not the expansion had run before. -/
theorem KeyedIdle.completes {s : State} (h : KeyedIdle s) (dir : Dir) (b : Block) :
    ∃ t, RunsToIdle (acceptBlock dir b s) t ∧ Completed dir b s t := by
  obtain ⟨t, hrun, hidle, ht⟩ := RunsToIdle.exists_of_kept (s := acceptBlock dir b s)
    (fun _ hb hu => Computing.engineStep hb hu) h.holds (h.computing_acceptBlock dir b)
  exact ⟨t, hrun, ht.completed hidle⟩

/-- The next command can follow. -/
theorem KeyedIdle.of_completed {dir : Dir} {b : Block} {s t : State} (h : KeyedIdle s) (ht : Completed dir b s t) :
    KeyedIdle t :=
  ⟨ht.setting.keyBound.trans h.keyBound, by rw [ht.seq], fun _ _ => by rw [ht.rk, ht.setting.mkey],
    (hostHolds_congr ht.setting.host).trans h.holds⟩

/-- Settles O25: the accepted block runs to completion, in forward order. -/
theorem encEndsWithCiphertext : Obligations.EncEndsWithCiphertext := by
  unfold Obligations.EncEndsWithCiphertext
  intro len opnd s hlen hk hidle hcoh hh
  obtain ⟨t, hrun, ht⟩ := KeyedIdle.completes ⟨hk, hidle, hcoh, hh⟩ .e (normOpnd opnd len.toNat)
  exact ⟨_, t, exec_enc hlen opnd hk, hrun, ht.dout, ht.outValid, ht.expanded, ht.rk, ht.seq, ht.setting.mkey,
    ht.setting.keyBound.trans hk, ht.setting.err, ht.setting.host, ht.setting.reads⟩

/-- Settles O26: the accepted operand runs to completion, in reversed order. -/
theorem decEndsWithPlaintext : Obligations.DecEndsWithPlaintext := by
  unfold Obligations.DecEndsWithPlaintext
  intro len opnd s hlen hk hidle hcoh hh
  obtain ⟨t, hrun, ht⟩ := KeyedIdle.completes ⟨hk, hidle, hcoh, hh⟩ .d opnd
  exact ⟨_, t, exec_dec hlen opnd hk, hrun, ht.dout, ht.outValid, ht.expanded, ht.rk, ht.seq, ht.setting.mkey,
    ht.setting.keyBound.trans hk, ht.setting.err, ht.setting.host, ht.setting.reads⟩

/-- Settles O27: the second command completes under the same key, with the round keys in the other order, which takes the first
command's rounds back. -/
theorem engineRoundTrip : Obligations.EngineRoundTrip := by
  unfold Obligations.EngineRoundTrip
  intro s hk hidle hcoh hh
  have hs : KeyedIdle s := ⟨hk, hidle, hcoh, hh⟩
  refine ⟨fun len b hlen => ?encThenDec, fun b => ?decThenEnc⟩
  case encThenDec =>
    obtain ⟨t, hrun, ht⟩ := hs.completes .e (normOpnd b len.toNat)
    have hs' := hs.of_completed ht
    obtain ⟨w, hrun', hw⟩ := hs'.completes .d t.dout
    have hdout : w.dout = normOpnd b len.toNat := by
      rw [hw.dout, ht.dout, ht.setting.mkey]
      exact crypt_reverseKeys_crypt _ _
    exact ⟨_, t, _, w, exec_enc hlen b hk, hrun, exec_dec rfl t.dout hs'.keyBound, hrun', hdout,
      fun hfull => by rw [hdout, hfull]; exact normOpnd_full b, hw.outValid⟩
  case decThenEnc =>
    obtain ⟨t, hrun, ht⟩ := hs.completes .d b
    have hs' := hs.of_completed ht
    obtain ⟨w, hrun', hw⟩ := hs'.completes .e (normOpnd t.dout (16#5).toNat)
    have hfull : normOpnd t.dout (16#5).toNat = t.dout := normOpnd_full t.dout
    have hdout : w.dout = b := by
      rw [hw.dout, hfull, ht.dout, ht.setting.mkey]
      exact crypt_crypt_reverseKeys _ _
    exact ⟨_, t, _, w, exec_dec rfl b hk, hrun, exec_enc (len := 16#5) (by decide) t.dout hs'.keyBound, hrun', hdout, hw.outValid⟩

/-- Under one key, one block in one direction gives one output, and the idle state reached is the only one (R161). -/
theorem KeyedIdle.same_output {s s' : State} (h : KeyedIdle s) (h' : KeyedIdle s') (hm : s.mkey = s'.mkey) (dir : Dir)
    (b : Block) :
    ∃ t t', RunsToIdle (acceptBlock dir b s) t ∧ RunsToIdle (acceptBlock dir b s') t' ∧ t.dout = t'.dout ∧
      ∀ w, RunsToIdle (acceptBlock dir b s) w → w = t := by
  obtain ⟨t, hrun, ht⟩ := h.completes dir b
  obtain ⟨t', hrun', ht'⟩ := h'.completes dir b
  exact ⟨t, t', hrun, hrun', by rw [ht.dout, ht'.dout, hm], fun _ hw => hrun.unique hw⟩

/-- Settles O28: either command accepts one block from both states, and what it leaves in `DOUT` is a function of block and key. -/
theorem outputDependsOnKeyAndBlockOnly : Obligations.OutputDependsOnKeyAndBlockOnly := by
  unfold Obligations.OutputDependsOnKeyAndBlockOnly
  intro s s' len len' opnd opnd' hm hk hk' hidle hidle' hcoh hcoh' hh hh'
  have hsame := KeyedIdle.same_output ⟨hk, hidle, hcoh, hh⟩ ⟨hk', hidle', hcoh', hh'⟩ hm
  refine ⟨fun hlen hlen' hnorm => ?enc, fun hlen hlen' hopnd => ?dec⟩
  case enc =>
    obtain ⟨t, t', hruns⟩ := hsame .e (normOpnd opnd len.toNat)
    exact ⟨_, _, t, t', exec_enc hlen opnd hk, hnorm ▸ exec_enc hlen' opnd' hk', hruns⟩
  case dec =>
    subst hopnd
    obtain ⟨t, t', hruns⟩ := hsame .d opnd
    exact ⟨_, _, t, t', exec_dec hlen opnd hk, exec_dec hlen' opnd hk', hruns⟩

end Sys2Proof.Machine

/-! SUPPORT. Faults (60_exceptions): what a presented command that faults leaves, the fault that each command answers, and that neither a
fault nor an idle engine stops the machine. -/

namespace Sys2Proof.Machine

/-! ### A presented command, by the fault of its word (R86, R185) -/

/-- A presented command with a fault is consumed, and `ERR` alone may change (R186). -/
theorem step_of_commandFault {s : State} {cw : Byte} {opnd : Block} {rest : List HostAction} {c : ErrCode}
    (hp : Presented s cw opnd rest) (hf : commandFault cw s.keyBound = some c) :
    step s = .next { s with host := rest, err := errAfter s.err c } := by
  rw [step_of_presented hp]
  obtain ⟨d, hd, e⟩ | ⟨_, hn, -⟩ | ⟨_, hn, -⟩ | ⟨_, hn, -⟩ := acceptCommand_cases cw opnd { s with host := rest }
  · obtain rfl : c = d := Option.some.inj (hf.symm.trans hd)
    rw [e, raiseFault_eq]
  all_goals exact absurd (hf.symm.trans hn) nofun

/-- A word without a fault decodes to a well-formed command, and its acceptance leaves that command's state (R86, R187). -/
theorem acceptCommand_of_commandFault_none {cw : Byte} {s : State} (hf : commandFault cw s.keyBound = none) (opnd : Block) :
    ∃ i, decode cw opnd = .ok i ∧ i.wellFormed = true ∧ acceptCommand cw opnd s = .next (accepted i s) := by
  obtain ⟨c, hc, -⟩ | ⟨len, -, hd, hl, e⟩ | ⟨len, -, hd, hl, -, e⟩ | ⟨len, -, hd, hl, -, e⟩ := acceptCommand_cases cw opnd s
  · exact absurd (hf.symm.trans hc) nofun
  all_goals exact ⟨_, hd, decide_eq_true hl, e⟩

/-- An accepted command writes neither `ERR` nor the host's schedule. -/
theorem accepted_frame (i : Instr) (s : State) : (accepted i s).err = s.err ∧ (accepted i s).host = s.host := by
  cases i <;> exact ⟨rfl, rfl⟩

/-- Settles O34: the word's fault is raised; without one, the acceptance is the execution of the decoded command. -/
theorem faultsArePreciseAndPrioritised : Obligations.FaultsArePreciseAndPrioritised := by
  unfold Obligations.FaultsArePreciseAndPrioritised
  intro s cw opnd rest hp
  refine ⟨fun c hf => step_of_commandFault hp hf, fun hf => ?executed⟩
  obtain ⟨i, hd, hwf, haccept⟩ := acceptCommand_of_commandFault_none (s := { s with host := rest }) hf opnd
  have hstep : step s = .next (accepted i { s with host := rest }) := (step_of_presented hp).trans haccept
  have hexec : step s = exec i { s with host := rest } := stepRunsDecodedCommand s cw opnd rest i hp hd
  obtain ⟨herr, hhost⟩ := accepted_frame i { s with host := rest }
  exact ⟨i, _, hd, hwf, hexec.symm.trans hstep, hstep, herr, hhost⟩

/-! ### The three faults (R181 to R183) -/

/-- A reserved `op` is illegal before `len` and the key state are looked at (R181, R185). -/
theorem commandFault_of_reserved {cw : Byte} (h : cwOp cw = 0 ∨ cwOp cw = 4 ∨ cwOp cw = 5 ∨ cwOp cw = 6 ∨ cwOp cw = 7)
    (keyBound : Bool) : commandFault cw keyBound = some .illegalCommand := by
  obtain h | h | h | h | h := h <;> simp [commandFault, h]

/-- Settles O33: IllegalCommand is the fault of such a word. -/
theorem reservedOpFaults : Obligations.ReservedOpFaults := by
  unfold Obligations.ReservedOpFaults
  exact fun s _ _ _ hp hop => step_of_commandFault hp (commandFault_of_reserved hop s.keyBound)

/-- Settles O31: the length is the first check of each of the three commands. -/
theorem badLengthFaults : Obligations.BadLengthFaults := by
  unfold Obligations.BadLengthFaults
  refine fun len opnd s => ⟨fun h => ?setkey, fun h => ?enc, fun h => ?dec⟩
  case setkey => rw [exec, execSetkey_eq, if_pos h, raiseFault_eq]
  case enc => rw [exec, execEnc_eq, if_pos h, raiseFault_eq]
  case dec => rw [exec, execDec_eq, if_pos h, raiseFault_eq]

/-- Settles O32: with the length legal, the key is the second check of `ENC` and `DEC`. -/
theorem noKeyFaults : Obligations.NoKeyFaults := by
  unfold Obligations.NoKeyFaults
  refine fun len opnd s hk => ⟨fun h => ?enc, fun h => ?dec⟩
  case enc => rw [exec, execEnc_eq, if_neg (Nat.not_lt.mpr h), if_pos hk, raiseFault_eq]
  case dec => rw [exec, execDec_eq, if_neg (not_not_intro h), if_pos hk, raiseFault_eq]

/-! ### Nothing stops the machine (R188, R195) -/

/-- Settles O50: the inversion of a step gives the next state in every case. -/
theorem stepNeverStops : Obligations.StepNeverStops := by
  unfold Obligations.StepNeverStops
  intro s
  obtain ⟨t, ht, -⟩ := step_cases s
  exact ⟨t, ht⟩

/-- Idle, the engine's own step keeps the whole state (R195). -/
theorem engineStep_of_idle {s : State} (hp : s.seq.phase = .idle) : engineStep s = s := by simp [engineStep, hp]

/-- Settles O52: with no host move the step is the engine's own. -/
theorem idleEngineWaits : Obligations.IdleEngineWaits := by
  unfold Obligations.IdleEngineWaits
  intro s hp hh
  simp [step, advance, hh, engineStep_of_idle hp]

end Sys2Proof.Machine

/-! SUPPORT. Reset, hazards and the host (70_reset_and_hazards): what a reset gives in any state, what a busy engine does with a held
command, and that no step lets a data value into the control state. -/

namespace Sys2Proof.Machine

/-! ### What control can see of one step (R224, R157) -/

/-- Two host moves that differ at most in the operand present the same command word, or are one move that presents no command. -/
theorem SameMove.issue_or_eq {a a' : HostAction} (h : SameMove a a') :
    (∃ cw opnd opnd', a = .issue cw opnd ∧ a' = .issue cw opnd') ∨ (a = a' ∧ ∀ cw opnd, a ≠ .issue cw opnd) := by
  unfold SameMove at h
  split at h
  case h_1 => exact .inl ⟨_, _, _, rfl, by rw [h]⟩
  case h_2 hno => exact .inr ⟨h, fun cw opnd e => hno cw opnd cw opnd e (h ▸ e)⟩

/-- `STATUS` is made of the flags, `ERR` and the phase (R32). -/
theorem SameControl.status_eq {s s' : State} (h : SameControl s s') : s.status = s'.status := by
  simp only [State.status, State.busy, h.keyBound, h.expanded, h.outValid, h.err, h.seq]

/-- `READY` is made of the phase (R31). -/
theorem SameControl.ready_eq {s s' : State} (h : SameControl s s') : s.ready = s'.ready := by
  rw [State.ready, State.ready, h.seq]

/-- The schedule left after a move can be put in on both sides. -/
theorem SameControl.withSchedule {s s' : State} (h : SameControl s s') {rest rest' : List HostAction}
    (hrest : List.Forall₂ SameMove rest rest') : SameControl { s with host := rest } { s' with host := rest' } :=
  { h with host := hrest }

theorem SameControl.resetEngine {s s' : State} (h : SameControl s s') : SameControl (resetEngine s) (resetEngine s') :=
  ⟨rfl, rfl, rfl, rfl, rfl, h.host⟩

theorem SameControl.hostReadStatus {s s' : State} (h : SameControl s s') :
    SameControl (hostReadStatus s) (hostReadStatus s') :=
  { h with }

theorem SameControl.hostReadDout {s s' : State} (h : SameControl s s') :
    SameControl (hostReadDout s) (hostReadDout s') :=
  { h with }

theorem SameControl.raiseFault {s s' : State} (h : SameControl s s') (c : ErrCode) :
    SameControl (raiseFault c s) (raiseFault c s') := by
  rw [raiseFault_eq, raiseFault_eq, h.err]
  exact { h with err := rfl }

/-- The key itself is no part of the control state. -/
theorem SameControl.bindKey {s s' : State} (h : SameControl s s') (p p' : Block) :
    SameControl (bindKey p s) (bindKey p' s') :=
  { h with keyBound := rfl, expanded := rfl }

/-- Whether the expansion runs depends on `EXPANDED`, not on the block (R154). -/
theorem SameControl.acceptBlock {s s' : State} (h : SameControl s s') (dir : Dir) (b b' : Block) :
    SameControl (acceptBlock dir b s) (acceptBlock dir b' s') :=
  { h with outValid := rfl, seq := by simp only [acceptBlock_seq, h.expanded] }

/-- Key-expansion steps are counted by the index alone (R133). -/
theorem SameControl.keyExpansionStep {s s' : State} (h : SameControl s s') :
    SameControl (keyExpansionStep s) (keyExpansionStep s') := by
  by_cases hi : s.seq.i.val < 31
  · rw [keyExpansionStep_of_lt hi, keyExpansionStep_of_lt (h.seq ▸ hi)]
    exact { h with seq := by simp only [h.seq] }
  · have hlast := Sequencer.eq_last_of_not_lt hi
    rw [keyExpansionStep_of_last hlast, keyExpansionStep_of_last (h.seq ▸ hlast)]
    exact { h with expanded := rfl, seq := by simp only [h.seq] }

/-- Rounds are counted by the index alone (R157). -/
theorem SameControl.roundStep {s s' : State} (h : SameControl s s') : SameControl (roundStep s) (roundStep s') := by
  by_cases hi : s.seq.i.val < 31
  · rw [roundStep_of_lt hi, roundStep_of_lt (h.seq ▸ hi)]
    exact { h with seq := by simp only [h.seq] }
  · have hlast := Sequencer.eq_last_of_not_lt hi
    rw [roundStep_of_last hlast, roundStep_of_last (h.seq ▸ hlast)]
    exact { h with outValid := rfl, seq := by simp only [h.seq] }

theorem SameControl.engineStep {s s' : State} (h : SameControl s s') : SameControl (engineStep s) (engineStep s') := by
  cases hp : s.seq.phase with
  | idle => rwa [engineStep_of_idle hp, engineStep_of_idle (h.seq ▸ hp)]
  | kexp =>
    rw [engineStep_of_kexp hp, engineStep_of_kexp (h.seq ▸ hp)]
    exact h.keyExpansionStep
  | crypt =>
    rw [engineStep_of_crypt hp, engineStep_of_crypt (h.seq ▸ hp)]
    exact h.roundStep

/-- Two outcomes that both go on, to states that differ at most in key, block and operand values. -/
inductive SameControlNext : Host.Outcome State Fault Refusal → Host.Outcome State Fault Refusal → Prop where
  | next {t t' : State} : SameControl t t' → SameControlNext (.next t) (.next t')

/-- Acceptance looks at the command word and `KEY_BOUND`; the operand only reaches `MK` and `XW` (R86, R187). -/
theorem SameControl.acceptCommand {s s' : State} (h : SameControl s s') (cw : Byte) (opnd opnd' : Block) :
    SameControlNext (acceptCommand cw opnd s) (acceptCommand cw opnd' s') := by
  unfold Machine.acceptCommand
  by_cases h1 : cwOp cw = 0b001#3
  · simp only [decode_of_op_setkey h1, exec, execSetkey_eq]
    split
    · exact .next (h.raiseFault _)
    · exact .next (h.bindKey _ _)
  by_cases h2 : cwOp cw = 0b010#3
  · simp only [decode_of_op_enc h2, exec, execEnc_eq, ← h.keyBound]
    split
    · exact .next (h.raiseFault _)
    split
    · exact .next (h.raiseFault _)
    · exact .next (h.acceptBlock _ _ _)
  by_cases h3 : cwOp cw = 0b011#3
  · simp only [decode_of_op_dec h3, exec, execDec_eq, ← h.keyBound]
    split
    · exact .next (h.raiseFault _)
    split
    · exact .next (h.raiseFault _)
    · exact .next (h.acceptBlock _ _ _)
  · simp only [decode_of_op_reserved h1 h2 h3]
    exact .next (h.raiseFault _)

/-- One step, by the host's next move, which is the same on both sides up to the operand. -/
theorem SameControl.step {s s' : State} (h : SameControl s s') : SameControlNext (step s) (step s') := by
  have hhost := h.host
  unfold Machine.step advance
  cases hs : s.host with
  | nil =>
    rw [hs, List.forall₂_nil_left_iff] at hhost
    rw [hhost]
    exact .next h.engineStep
  | cons a rest =>
    rw [hs, List.forall₂_cons_left_iff] at hhost
    obtain ⟨a', rest', hmove, hrest, hs'⟩ := hhost
    have hleft := h.withSchedule hrest
    rw [hs']
    obtain ⟨cw, opnd, opnd', rfl, rfl⟩ | ⟨rfl, hno⟩ := hmove.issue_or_eq
    · simp only [← h.ready_eq]
      split
      · exact hleft.acceptCommand cw opnd opnd'
      · exact .next h.engineStep
    · cases a with
      | reset => exact .next hleft.resetEngine
      | readStatus => exact .next hleft.hostReadStatus
      | readDout => exact .next hleft.hostReadDout
      | pass => exact .next hleft.engineStep
      | issue cw opnd => exact absurd rfl (hno cw opnd)
      | awaitReady =>
        simp only [← h.ready_eq]
        split
        · exact .next hleft
        · exact .next h.engineStep

/-- Settles O53: whatever the host's next move, both states go on alike, and `STATUS` and `READY` are made of what they share. -/
theorem controlIsDataIndependent : Obligations.ControlIsDataIndependent := by
  unfold Obligations.ControlIsDataIndependent
  intro s s' t t' h ht ht'
  have hnext := h.step
  rw [ht, ht'] at hnext
  cases hnext with
  | next h' => exact ⟨h', h'.status_eq, h'.ready_eq⟩

/-! ### A held command (R216, R218) -/

/-- Each step of a busy engine moves `SEQ` on: the bound on the steps left goes down, and it is made of `SEQ`. -/
theorem engineStep_seq_ne {s : State} (hb : s.seq.phase ≠ .idle) : (engineStep s).seq ≠ s.seq := by
  intro h
  have hlt := stepsLeft_engineStep_lt hb
  rw [stepsLeft, stepsLeft, h] at hlt
  exact Nat.lt_irrefl _ hlt

/-- The engine's own step keeps the direction, at completion too (log 19). -/
theorem engineStep_dir (s : State) : (engineStep s).seq.dir = s.seq.dir := by
  unfold engineStep
  split
  · rfl
  · exact keyExpansionStep_dir s
  · exact roundStep_dir s

/-- Settles O47: while the host holds, the step is the engine's own, which neither looks at the host's schedule nor changes it. -/
theorem busyEngineHoldsCommands : Obligations.BusyEngineHoldsCommands := by
  unfold Obligations.BusyEngineHoldsCommands
  intro s cw opnd rest hb hhost
  have hholds : hostHolds s = true := by simp [hostHolds, hhost]
  obtain ⟨hkept, herr, hmkey, hkeyBound, -⟩ := engineStep_frame s
  refine ⟨engineStep s, step_of_busy hb hholds, hkept, herr, hmkey, hkeyBound, engineStep_seq_ne hb, engineStep_dir s,
    fun other hother => ?_⟩
  rw [← engineStep_host]
  exact step_of_busy hb hother

/-! ### Reset (R210, R211) -/

/-- Settles O43: the fields are those of the reset state, and what is made of them is closed. -/
theorem resetStateAsTabulated : Obligations.ResetStateAsTabulated := by
  unfold Obligations.ResetStateAsTabulated
  exact ⟨rfl, rfl, rfl, rfl, rfl, rfl, rfl, rfl, rfl, rfl⟩

/-- A reset signal is one step, in any state. -/
theorem step_of_reset {s : State} {rest : List HostAction} (hh : s.host = .reset :: rest) :
    step s = .next (resetEngine { s with host := rest }) := by
  simp [step, advance, hh]

/-- After a reset `STATUS` is the one of `State.reset`: no bit of it depends on the state before. -/
@[simp] theorem resetEngine_status (s : State) : (resetEngine s).status = 0x00 := by
  simp [State.status, State.busy, ErrCode.code]

/-- Settles O44: the step is the reset operation, whose result does not depend on the phase, the flags or `ERR` before it. -/
theorem resetSignalFromAnyState : Obligations.ResetSignalFromAnyState := by
  unfold Obligations.ResetSignalFromAnyState
  intro s rest hh
  exact ⟨_, step_of_reset hh, rfl, rfl, rfl, rfl, rfl, rfl, rfl, resetEngine_status _, rfl, rfl, rfl⟩

/-- Of an idle engine at index 0 with `EXPANDED = 0` the invariant asks nothing more: what it says of `RK` and `KW` is about KEXP, CRYPT
and `EXPANDED = 1`. -/
theorem engineInv_of_idle_of_not_expanded {s : State} (hp : s.seq.phase = .idle) (hi : s.seq.i = 0) (he : s.expanded = false) :
    EngineInv s where
  expanded_bound := by simp [he]
  busy_bound := fun h => absurd hp h
  idle_index := fun _ => hi
  kexp_window := by simp [hp]
  crypt_expanded := by simp [hp]
  coherent := by simp [Coherent, he]

/-- Settles O45: reset is idle at index 0 with `EXPANDED = 0`. -/
theorem resetMeetsInvariant : Obligations.ResetMeetsInvariant := by
  unfold Obligations.ResetMeetsInvariant
  exact engineInv_of_idle_of_not_expanded rfl rfl rfl

end Sys2Proof.Machine
